-- ==== Sys2Proof/Word.lean ====
section
/-! DEFINITION. The word of the datapath, and narrowing. -/

namespace Sys2Proof

/-- The container of a datapath word. R9 takes 16 ≤ W ≤ 64, so every W-bit value fits; a value of an instance of
width W has its bits W and above zero (R12), which `truncTo` enforces where values enter (log 2). -/
abbrev Word := BitVec 64

/-- `trunc_w(v) = v mod 2^w` (R13, R43). -/
def truncTo (w : Nat) (v : Word) : Word := BitVec.ofNat 64 (v.toNat % 2 ^ w)

/-- `zext_W` of a natural number that is less than 2^64 (R13). -/
abbrev zext (n : Nat) : Word := BitVec.ofNat 64 n

end Sys2Proof
end

