-- ==== Sys2Proof/Syntax.lean ====
section
/-! DEFINITION. The commands: one constructor per row of spec/opcode_table.json (30_encoding.md R62). The operands
on opa and opb are not part of the command word (R61); they are read from the port's sampled buses. -/

namespace Sys2Proof

/-- A command (R62, R63). HS is a 6-bit unsigned field (R59). -/
inductive Instr where
  /-- ILV h: evaluate the Bit Interleaver (R80) -/
  | ilv (h : BitVec 6)
  /-- VAL h: evaluate the Index-to-Value Mapper (R81) -/
  | val (h : BitVec 6)
  /-- GEN: fill the LUT (R96) -/
  | gen
  /-- RDL: read one LUT element (R99) -/
  | rdl
  /-- RDR sel: read one register (R110) -/
  | rdr (sel : BitVec 6)
deriving DecidableEq, Repr

end Sys2Proof
end

