-- ==== Sys2Proof/WellFormed.lean ====
section
/-! DEFINITION. Which commands have a legal word (30_encoding.md R62, R65). -/

namespace Sys2Proof

/-- RDR's sel is legal only up to 10 (R62, R65). Every 6-bit h is a legal field of ILV and VAL: h ≥ W is a fault of
the command, not of its word (R59, R62). -/
def Instr.wellFormed : Instr → Bool
  | .ilv _ => true
  | .val _ => true
  | .gen => true
  | .rdl => true
  | .rdr sel => sel.toNat ≤ 10

end Sys2Proof
end

