-- ==== Sys2Proof/Decode.lean ====
section
/-! DEFINITION. The command word (30_encoding.md R57 to R66): fields, decoder, encoder, and the opcode table as data. -/

namespace Sys2Proof

/-! ### Fields (R57) -/

/-- OP = cmd[3:0] -/
def opField (cmd : BitVec 16) : BitVec 4 := cmd.extractLsb' 0 4

/-- HS = cmd[9:4] -/
def hsField (cmd : BitVec 16) : BitVec 6 := cmd.extractLsb' 4 6

/-- RSV = cmd[15:10] -/
def rsvField (cmd : BitVec 16) : BitVec 6 := cmd.extractLsb' 10 6

/-- `cmd = {RSV, HS, OP}` -/
def commandWord (rsv hs : BitVec 6) (op : BitVec 4) : BitVec 16 := ((rsv ++ hs) ++ op).setWidth 16

/-! ### Decoding (R63) -/

/-- Why a word is ILLEGAL: the four reserved kinds of R64. -/
inductive Illegal where
  /-- RSV ≠ 0 (R60) -/
  | reservedBits
  /-- OP is 0x0 or 0x6 to 0xF (R58) -/
  | reservedOpcode
  /-- GEN or RDL with HS ≠ 0 (R59) -/
  | nonzeroHs
  /-- RDR with sel 11 to 63 (R65) -/
  | reservedRegister
deriving DecidableEq, Repr

/-- What a word decodes to. -/
inductive Decoded where
  | instr (i : Instr)
  | illegal (why : Illegal)
deriving DecidableEq, Repr

/-- `Decode(cmd)` of R63, total over all 2^16 words. It reads no operand bus. -/
def decode (cmd : BitVec 16) : Decoded :=
  if rsvField cmd ≠ 0 then .illegal .reservedBits
  else if opField cmd = 0x1 then .instr (.ilv (hsField cmd))
  else if opField cmd = 0x2 then .instr (.val (hsField cmd))
  else if opField cmd = 0x3 then
    if hsField cmd = 0 then .instr .gen else .illegal .nonzeroHs
  else if opField cmd = 0x4 then
    if hsField cmd = 0 then .instr .rdl else .illegal .nonzeroHs
  else if opField cmd = 0x5 then
    if (hsField cmd).toNat ≤ 10 then .instr (.rdr (hsField cmd)) else .illegal .reservedRegister
  else .illegal .reservedOpcode

/-- The decoder on a row of spec/opcode_table.json: one 16-bit word, numbered as the port numbers it (R57). There
is no longer command (R66). -/
def decodeTableWord (nbits w : Nat) : Option Instr :=
  if nbits ≤ 16 then
    match decode (BitVec.ofNat 16 (w % 2 ^ nbits)) with
    | .instr i => some i
    | .illegal _ => none
  else none

/-! ### Encoding (R62, R70) -/

/-- The opcode of a command (R62). -/
def opcode : Instr → BitVec 4
  | .ilv _ => 0x1
  | .val _ => 0x2
  | .gen => 0x3
  | .rdl => 0x4
  | .rdr _ => 0x5

/-- The HS field of a command (R59). -/
def hsOf : Instr → BitVec 6
  | .ilv h => h
  | .val h => h
  | .gen => 0
  | .rdl => 0
  | .rdr sel => sel

/-- The word of a well-formed command (R62). -/
def encode (i : Instr) : BitVec 16 := commandWord 0 (hsOf i) (opcode i)

/-! ### The opcode table as data (R62) -/

/-- A row of R62's match and mask table. -/
structure OpcodeRow where
  mask : BitVec 16
  pattern : BitVec 16
  /-- the further condition on HS (RDR's HS ≤ 10; 63 elsewhere, which every HS meets) -/
  hsMax : Nat
deriving DecidableEq, Repr

/-- The word fits the row. -/
def OpcodeRow.fits (r : OpcodeRow) (cmd : BitVec 16) : Bool :=
  cmd &&& r.mask == r.pattern && (hsField cmd).toNat ≤ r.hsMax

/-- The row of a command (R62, spec/opcode_table.json). -/
def opcodeRow : Instr → OpcodeRow
  | .ilv _ => { mask := 0xFC0F, pattern := 0x0001, hsMax := 63 }
  | .val _ => { mask := 0xFC0F, pattern := 0x0002, hsMax := 63 }
  | .gen => { mask := 0xFFFF, pattern := 0x0003, hsMax := 63 }
  | .rdl => { mask := 0xFFFF, pattern := 0x0004, hsMax := 63 }
  | .rdr _ => { mask := 0xFC0F, pattern := 0x0005, hsMax := 10 }

end Sys2Proof
end

