-- ==== Sys2Proof/Config.lean ====
section
/-! DEFINITION. What one instance fixes (00_scope.md R6 to R11), and the free values. -/

namespace Sys2Proof

/-- OVERFLOW_MODE (R11): what GEN stores when RANGE_CHECK is false and a value does not fit in TW bits. -/
inductive OverflowMode where
  | truncate
  | any
deriving DecidableEq, Repr

/-- The elaboration parameters of one instance (R6 to R11, R20). They are not run-time state: no step changes them. -/
structure Params where
  /-- rows of the matrix (R6) -/
  N : Nat
  /-- columns of the matrix (R7) -/
  M : Nat
  /-- width of an element (R8) -/
  TW : Nat
  /-- width of the datapath (R9) -/
  W : Nat
  /-- RANGE_CHECK (R10) -/
  rangeCheck : Bool
  /-- OVERFLOW_MODE (R11) -/
  overflow : OverflowMode
deriving DecidableEq, Repr

/-- The reference instance: W = 64, RANGE_CHECK true and TRUNCATE are the spec's (R9 to R11); N = M = 4 and TW = 8
are the default instance of 95_test_vectors.md (DESIGN CHOICE, log 1). -/
def Params.reference : Params :=
  { N := 4, M := 4, TW := 8, W := 64, rangeCheck := true, overflow := .truncate }

/-- The k-th free draw of OVERFLOW_MODE = ANY: `draw_TW`, "free per element, under no law" (R95, U1; log 11).
It has no body, so nothing can be proved of its value. -/
opaque Config.freeElement : Nat → Word

end Sys2Proof
end

