-- ==== Sys2Proof/Machine/Params.lean ====
section
/-! DEFINITION. The derived constants B and HOB (41_lut_constructor.md R90) and the elaboration check
(10_state.md R20). -/

namespace Sys2Proof

/-- The least exponent from `b` on whose power of two is at least `x`, looking at most `fuel` exponents ahead. -/
def clog2From (x : Nat) : Nat → Nat → Nat
  | 0, b => b
  | fuel + 1, b => if x ≤ 2 ^ b then b else clog2From x fuel (b + 1)

/-- `clog2(x)`: the least B with 2^B ≥ x (R13). x exponents are enough, since 2^x ≥ x. -/
def clog2 (x : Nat) : Nat := clog2From x x 0

/-- B = clog2(max(N, M)) (R90; 90_conflicts.md C1). -/
def Params.indexBits (p : Params) : Nat := clog2 (max p.N p.M)

/-- HOB = max(2·B − 1, 0) (R90); subtraction of naturals floors at zero. -/
def Params.hob (p : Params) : Nat := 2 * p.indexBits - 1

/-- The elaboration check over all parameters together (R20 items 1 to 4). -/
def Params.legal (p : Params) : Bool :=
  (1 ≤ p.N && 1 ≤ p.M) && (16 ≤ p.W && p.W ≤ 64) && (1 ≤ p.TW && p.TW ≤ p.W) && p.hob < p.W

/-- The number of cells of the matrix (R32). -/
def Params.cells (p : Params) : Nat := p.N * p.M

/-- The flat, row-major position of cell (r, c) (R41). -/
def Params.flat (p : Params) (r c : Nat) : Nat := r * p.M + c

end Sys2Proof
end

