-- ==== Sys2Proof/Machine/State.lean ====
section
/-! DEFINITION. The state of the block and of the host that drives it (10_state.md; 30_encoding.md R55, R56), as plain
data, and the state after reset (R35, R135). -/

namespace Sys2Proof.Machine

/-- PHASE (R23). The reserved code 3 is never held, so it has no constructor (U8). -/
inductive Phase where
  | empty
  | done
  | fault
deriving DecidableEq, Repr

/-- CAUSE (R25, R116). The reserved codes 6 to 15 are never recorded, so they have no constructor (U8). -/
inductive Cause where
  | none
  | range
  | illegalCmd
  | hobRange
  | notReady
  | badIndex
deriving DecidableEq, Repr

/-- A response `(rsp_err, rsp_data)` (R67). -/
structure Response where
  err : Bool
  data : Word
deriving DecidableEq, Repr

/-- What the port samples at the accepting edge (R56 item 1). -/
structure Request where
  cmd : BitVec 16
  opa : Word
  opb : Word
deriving DecidableEq, Repr

/-- The condition of the port's handshake (R56, R135). -/
inductive Port where
  /-- a reset edge has just passed: req_ready = 0 and rsp_valid = 0 (R135 item 3) -/
  | closed
  /-- req_ready = 1 -/
  | ready
  /-- a command has been accepted and has no response yet -/
  | accepted
  /-- rsp_valid = 1 with this response (R56 item 3) -/
  | answering (r : Response)
deriving DecidableEq, Repr

/-- The generation cursor (gr, gc) (R33). -/
structure Cursor where
  row : Nat
  col : Nat
deriving DecidableEq, Repr

/-- What the host drives at one rising clock edge (R55). -/
structure PortInputs where
  rst : Bool
  reqValid : Bool
  cmd : BitVec 16
  opa : Word
  opb : Word
  rspReady : Bool
deriving DecidableEq, Repr

/-- Who moves next (log 4): the host at a clock edge, or the block. -/
inductive Turn where
  /-- a rising clock edge with what the host drives -/
  | edge (i : PortInputs)
  /-- the block performs the accepted command and presents its response (R47) -/
  | perform
  /-- the block performs one cell step of the GEN in progress (R33, R143) -/
  | cell
deriving DecidableEq, Repr

/-- The LUT's storage: (flat position, element) pairs with rising positions; a position not listed holds no value
(R32, R41; log 8). -/
abbrev Memory := List (Nat × Word)

/-- The machine: the block's state, and the host's as far as the port shows it. -/
structure State where
  /-- the parameters of the instance (R20): constants -/
  cfg : Params
  /-- PHASE (R23) -/
  phase : Phase
  /-- CAUSE (R25) -/
  cause : Cause
  /-- FCMD (R26) -/
  fcmd : BitVec 16
  /-- FA (R26) -/
  fa : Word
  /-- FB (R26) -/
  fb : Word
  /-- FVAL (R26) -/
  fval : Word
  /-- the LUT (R32) -/
  lut : Memory
  /-- the generation cursor while a GEN is being filled (R33); none when no fill has begun -/
  fill : Option Cursor
  /-- the handshake (R56) -/
  port : Port
  /-- the sampled command and operands (R56 item 1) -/
  request : Request
  /-- the model's own: whose moves come next (log 4) -/
  turns : List Turn
  /-- the model's own: the responses the host has taken, oldest first (R145; log 18) -/
  received : List Response
  /-- the model's own: how many free element values have been drawn (R95; log 11) -/
  draws : Nat
deriving DecidableEq, Repr

/-- Why the machine stops with a fault. Faults of the BLOCK are not here: they are next states (R115). -/
inductive Fault where
  /-- Raised by RDL when PHASE is DONE and the element addressed holds no value (U3). Safe: no run reaches it, since
  in DONE every element holds a value (R32). -/
  | elementHasNoValue
deriving DecidableEq, Repr

/-- Why a step has no meaning. -/
inductive Refusal where
  /-- Raised by exec for an instruction that has no meaning yet; none here. Safe. -/
  | notModelled (mnemonic : String)
  /-- Raised by step when the parameters fail R20: no instance exists ("A model ... refuses a record that fails this
  check"). Safe (log 13). -/
  | parametersIllegal
deriving DecidableEq, Repr

/-- The state after reset of the instance with parameters `p`, nothing scheduled (R35, R135). -/
def State.resetOf (p : Params) : State where
  cfg := p
  phase := .empty
  cause := .none
  fcmd := 0
  fa := 0
  fb := 0
  fval := 0
  lut := []
  fill := none
  port := .closed
  request := { cmd := 0, opa := 0, opb := 0 }
  turns := []
  received := []
  draws := 0

/-- The state after reset of the reference instance (log 1). -/
def State.reset : State := State.resetOf Params.reference

end Sys2Proof.Machine
end

