-- ==== Sys2Proof/Machine/Ops.lean ====
section
/-! DEFINITION. The operations the commands share: the LUT's storage (00_scope.md R14, 20_memory.md R41), responses
(R67), fault entry (60_exceptions.md R119) and the one return from a fault, reset (R122, R135). -/

namespace Sys2Proof.Machine

/-- What a command answers with. -/
abbrev Outcome := Host.Outcome State Fault Refusal

/-! ### The LUT's storage -/

/-- The canonical form: positions strictly rising (log 8). -/
def Memory.wf : Memory → Bool
  | [] => true
  | [_] => true
  | (j, _) :: (k, y) :: rest => decide (j < k) && Memory.wf ((k, y) :: rest)

/-- The element at a position, if it holds a value. -/
def Memory.read : Memory → Nat → Option Word
  | [], _ => none
  | (j, x) :: rest, k => if j = k then some x else Memory.read rest k

/-- Store an element, keeping the canonical form. -/
def Memory.write : Memory → Nat → Word → Memory
  | [], k, v => [(k, v)]
  | (j, x) :: rest, k, v =>
    if k < j then (k, v) :: (j, x) :: rest
    else if k = j then (k, v) :: rest
    else (j, x) :: Memory.write rest k v

/-- `LutRead(r, c)` (R14, R41). -/
def lutRead (s : State) (r c : Nat) : Option Word := Memory.read s.lut (s.cfg.flat r c)

/-- `LutWrite(r, c, v)` (R14, R41). -/
def lutWrite (r c : Nat) (v : Word) (s : State) : State :=
  { s with lut := Memory.write s.lut (s.cfg.flat r c) v }

/-! ### Responses -/

/-- `respond(err, data)`: complete the current command (R14, R67). -/
def respond (err : Bool) (data : Word) (s : State) : State :=
  { s with port := .answering { err := err, data := data } }

/-- The answer to a command in the FAULT phase, RDR apart: (1, 0), and no state changes (R120, R68). -/
def reject (s : State) : State := respond true 0 s

/-! ### Faults -/

/-- Fault entry, `raise Fault(cause, a, b, val)` (R119): FCMD is the command word being performed. -/
def raiseFault (c : Cause) (a b val : Word) (s : State) : State :=
  respond true 0
    { s with phase := .fault, cause := c, fcmd := s.request.cmd, fa := a, fb := b, fval := val }

/-- The answer to a command when PHASE ≠ FAULT, and the rejection otherwise (R120; first in R121's order). -/
def unlessFaulted (s : State) (answer : Outcome) : Outcome :=
  if s.phase = .fault then .next (reject s) else answer

/-- A word that decodes as ILLEGAL (R63, R118; second in R121's order). -/
def illegalCommand (s : State) : Outcome :=
  unlessFaulted s (.next (raiseFault .illegalCmd s.request.opa s.request.opb 0 s))

/-! ### Reset: the return from a fault -/

/-- A rising edge with rst = 1 (R135, R136): every state element takes its reset value and any command in progress is
abandoned with no response. The parameters, the schedule, what the host has received and the count of draws are not
the block's state and stay. -/
def resetEdge (s : State) : State :=
  { State.resetOf s.cfg with turns := s.turns, received := s.received, draws := s.draws }

/-- Elaboration: the instance with these parameters, just reset, or nothing when they are illegal (R20, R117). -/
def elaborate (p : Params) : Option State :=
  if p.legal then some (State.resetOf p) else none

end Sys2Proof.Machine
end

