-- ==== Sys2Proof/Machine/Operands.lean ====
section
/-! DEFINITION. Operand assembly (30_encoding.md R61): no sign extension, scaling, shift or offset anywhere. -/

namespace Sys2Proof.Machine

/-- Operand 1, on opa: a, i or r (R61). -/
abbrev operandA (s : State) : Word := s.request.opa

/-- Operand 2, on opb: b, j or c (R61). -/
abbrev operandB (s : State) : Word := s.request.opb

/-- Operand 3 of ILV and VAL: h = HS, zero-extended (R59, R61). -/
abbrev operandH (h : BitVec 6) : Nat := h.toNat

/-- The operands as the port samples them: W-bit buses (R55, R56 item 1; log 2). -/
def sample (p : Params) (cmd : BitVec 16) (opa opb : Word) : Request :=
  { cmd := cmd, opa := truncTo p.W opa, opb := truncTo p.W opb }

end Sys2Proof.Machine
end

