-- ==== Sys2Proof/Machine/Flags.lean ====
section
/-! DEFINITION. Status. The block has no condition codes (10_state.md R34): its status is PHASE and CAUSE, and its flags
are the constant ones of CFG_FLAGS. The codes and the two words made of them. -/

namespace Sys2Proof.Machine

/-- The 2-bit code of PHASE (R23). -/
def Phase.code : Phase → BitVec 2
  | .empty => 0
  | .done => 1
  | .fault => 2

/-- The 4-bit code of CAUSE (R116). -/
def Cause.code : Cause → BitVec 4
  | .none => 0
  | .range => 1
  | .illegalCmd => 2
  | .hobRange => 3
  | .notReady => 4
  | .badIndex => 5

/-- `STATUS = zext_W({CAUSE, 0b00, PHASE})` (R28). -/
def statusWord (s : State) : Word := ((s.cause.code ++ 0#2) ++ s.phase.code).setWidth 64

/-- CFG_FLAGS (R30): bit 0 is RCHK, bit 1 is OVFANY, the rest read 0. -/
def flagsWord (p : Params) : Word :=
  (if p.rangeCheck then 1 else 0) ||| (if p.overflow = .any then 2 else 0)

end Sys2Proof.Machine
end

