-- ==== Sys2Proof/Machine/Interleave.lean ====
section
/-! DEFINITION. The Bit Interleaver and the Index-to-Value Mapper, and the commands ILV and VAL that expose them
(40_interleave_mapper.md). -/

namespace Sys2Proof.Machine

/-- R75's loop, from input bit position `k` with output cursor `cur`: while the cursor is not zero, a's bit k goes under
the cursor and b's bit k under the cursor one place lower. -/
def interleaveFrom (a b : Word) : Nat → Nat → Word → Word → Word
  | 0, _, _, out => out
  | fuel + 1, k, cur, out =>
    if cur = 0 then out
    else
      let outA := if a.getLsbD k then out ||| cur else out
      let curB := cur >>> 1
      let outB := if b.getLsbD k then outA ||| curB else outA
      interleaveFrom a b fuel (k + 1) (curB >>> 1) outB

/-- `BitInterleave(a, b, h)` (R75). For h < W ≤ 64 the cursor is zero after at most 32 iterations, so the fuel never
cuts the loop short. -/
def bitInterleave (a b : Word) (h : Nat) : Word := interleaveFrom a b 32 0 (1#64 <<< h) 0

/-- `ValueAt(i, j, h) = BitInterleave(i ^ j, i, h)` (R78). -/
def valueAt (i j : Word) (h : Nat) : Word := bitInterleave (i ^^^ j) i h

/-- The check ILV and VAL share, and the response with the value when it passes (R80, R81). -/
def evaluateBelowWidth (h : BitVec 6) (value : Word) (s : State) : Outcome :=
  unlessFaulted s
    (if s.cfg.W ≤ operandH h then
      .next (raiseFault .hobRange (operandA s) (operandB s) (zext (operandH h)) s)
    else .next (respond false value s))

/-- ILV (R80). -/
def execIlv (h : BitVec 6) (s : State) : Outcome :=
  evaluateBelowWidth h (bitInterleave (operandA s) (operandB s) (operandH h)) s

/-- VAL (R81): the indices are not checked against N and M, and the value is not narrowed. -/
def execVal (h : BitVec 6) (s : State) : Outcome :=
  evaluateBelowWidth h (valueAt (operandA s) (operandB s) (operandH h)) s

end Sys2Proof.Machine
end

