-- ==== Sys2Proof/Machine/Matrix.lean ====
section
/-! DEFINITION. The Matrix Generator and the LUT read: GEN and RDL (41_lut_constructor.md). -/

namespace Sys2Proof.Machine

/-- The wide value v(i, j) of a cell (R93). -/
def wideValue (p : Params) (i j : Nat) : Word := valueAt (zext i) (zext j) p.hob

/-- The value fits in TW bits: v < 2^TW (R94, R95). -/
def fitsElement (p : Params) (v : Word) : Bool := v.toNat < 2 ^ p.TW

/-- `Narrow(v)` (R95): the element to store, and the count of free draws after it. -/
def narrow (p : Params) (draws : Nat) (v : Word) : Word × Nat :=
  if fitsElement p v then (v, draws)
  else
    match p.overflow with
    | .truncate => (truncTo p.TW v, draws)
    | .any => (truncTo p.TW (Config.freeElement draws), draws + 1)

/-- The cell after this one in row-major order, if there is one (R92). -/
def Cursor.next (p : Params) (c : Cursor) : Option Cursor :=
  if c.col + 1 < p.M then some { row := c.row, col := c.col + 1 }
  else if c.row + 1 < p.N then some { row := c.row + 1, col := 0 }
  else none

/-- The fill begins at cell (0, 0) with no element written, unless it has already begun (R92, R96). -/
def genStart (s : State) : State :=
  match s.fill with
  | some _ => s
  | none => { s with fill := some { row := 0, col := 0 }, lut := [] }

/-- GEN's RANGE fault at a cell (R94, R118): after it no LUT element holds a value (R98). -/
def genFault (c : Cursor) (v : Word) (s : State) : State :=
  raiseFault .range (zext c.row) (zext c.col) v { s with lut := [], fill := none }

/-- GEN's end after its last cell: PHASE ← DONE, respond(0, 0) (R96). -/
def genFinish (s : State) : State := respond false 0 { s with phase := .done, fill := none }

/-- Store a cell's element and move the cursor, or finish (R96). -/
def genStore (c : Cursor) (v : Word) (s : State) : State :=
  let stored := lutWrite c.row c.col (narrow s.cfg s.draws v).1 s
  let counted := { stored with draws := (narrow s.cfg s.draws v).2 }
  match c.next s.cfg with
  | some c' => { counted with fill := some c' }
  | none => genFinish counted

/-- One cell step of the fill, at the cursor (the body of R96's loops). -/
def genCell (s : State) : State :=
  match s.fill with
  | none => s
  | some c =>
    if s.cfg.rangeCheck && !fitsElement s.cfg (wideValue s.cfg c.row c.col) then
      genFault c (wideValue s.cfg c.row c.col) s
    else genStore c (wideValue s.cfg c.row c.col) s

/-- Up to this many cell steps, stopping when the fill is over. -/
def genCells : Nat → State → State
  | 0, s => s
  | k + 1, s => if s.fill.isSome then genCells k (genCell s) else s

/-- GEN (R96, R97): in DONE it writes nothing; in EMPTY it fills the LUT. N·M cell steps are the whole fill. -/
def execGen (s : State) : Outcome :=
  unlessFaulted s
    (if s.phase = .done then .next (respond false 0 s)
    else .next (genCells s.cfg.cells (genStart s)))

/-- RDL (R99): the element at row opa and column opb, zero-extended; no tiling. -/
def execRdl (s : State) : Outcome :=
  unlessFaulted s
    (if s.phase ≠ .done then .next (raiseFault .notReady (operandA s) (operandB s) 0 s)
    else if s.cfg.N ≤ (operandA s).toNat ∨ s.cfg.M ≤ (operandB s).toNat then
      .next (raiseFault .badIndex (operandA s) (operandB s) 0 s)
    else
      match lutRead s (operandA s).toNat (operandB s).toNat with
      | some x => .next (respond false x s)
      | none => .fault .elementHasNoValue)

end Sys2Proof.Machine
end

