-- ==== Sys2Proof/Machine/Register.lean ====
section
/-! DEFINITION. The read-only register file and RDR (10_state.md R27 to R31, 42_register_access.md). -/

namespace Sys2Proof.Machine

/-- `Reg(sel)` (R14, R27): every register is W bits wide; sel 11 to 63 are reserved. -/
def readRegister (s : State) (sel : BitVec 6) : Option Word :=
  match sel.toNat with
  | 0 => some (statusWord s)
  | 1 => some (zext s.cfg.N)
  | 2 => some (zext s.cfg.M)
  | 3 => some (zext s.cfg.TW)
  | 4 => some (zext s.cfg.hob)
  | 5 => some (zext s.cfg.W)
  | 6 => some (flagsWord s.cfg)
  | 7 => some (s.fcmd.setWidth 64)
  | 8 => some s.fa
  | 9 => some s.fb
  | 10 => some s.fval
  | _ => none

/-- RDR (R110, R111): answered in every phase, and it changes nothing. A reserved sel, which no legal word carries, is an
illegal command (R65; log 20). -/
def execRdr (sel : BitVec 6) (s : State) : Outcome :=
  match readRegister s sel with
  | some v => .next (respond false v s)
  | none => illegalCommand s

end Sys2Proof.Machine
end

