-- ==== Sys2Proof/Machine/Dispatch.lean ====
section
/-! DEFINITION. One arm per command. -/

namespace Sys2Proof.Machine

def exec (i : Instr) (s : State) : Host.Outcome State Fault Refusal :=
  match i with
  | .ilv h => Sys2Proof.Machine.execIlv h s
  | .val h => Sys2Proof.Machine.execVal h s
  | .gen => Sys2Proof.Machine.execGen s
  | .rdl => Sys2Proof.Machine.execRdl s
  | .rdr sel => Sys2Proof.Machine.execRdr sel s

end Sys2Proof.Machine
end

