-- ==== Sys2Proof/Machine/Port.lean ====
section
/-! DEFINITION. The port (30_encoding.md R55, R56; 70_reset_and_hazards.md): the outputs, a rising clock edge, and the
turns of the block. -/

namespace Sys2Proof.Machine

/-! ### Outputs -/

/-- A GEN is in progress: accepted, in EMPTY, and not answered (R33, R140; log 6). -/
def generating (s : State) : Bool :=
  s.port = .accepted && s.phase = .empty && decode s.request.cmd = .instr .gen

/-- The block's outputs (R55). rsp_err and rsp_data are driven with a response only (log 19). -/
structure PortOutputs where
  reqReady : Bool
  rspValid : Bool
  rsp : Option Response
  busy : Bool
  done : Bool
  fault : Bool
deriving DecidableEq, Repr

/-- The response being presented, if there is one (R56 item 3). -/
def State.response (s : State) : Option Response :=
  match s.port with
  | .answering r => some r
  | _ => none

/-- The outputs as levels that follow the state (R55, R56, R123). -/
def State.outputs (s : State) : PortOutputs where
  reqReady := s.port = .ready
  rspValid := s.response.isSome
  rsp := s.response
  busy := generating s
  done := s.phase = .done
  fault := s.phase = .fault

/-! ### The host's move: a rising clock edge -/

/-- The host drives nothing: no reset, no request, and it takes no response. -/
def PortInputs.idle : PortInputs :=
  { rst := false, reqValid := false, cmd := 0, opa := 0, opb := 0, rspReady := false }

/-- A rising edge with rst = 0: a request is accepted only when req_ready = 1 (R56 items 1 and 2), a response is held until
it is taken (item 3), and req_ready becomes 1 at the first edge after reset (R135). -/
def handshake (i : PortInputs) (s : State) : State :=
  match s.port with
  | .closed => { s with port := .ready }
  | .ready =>
    if i.reqValid then { s with port := .accepted, request := sample s.cfg i.cmd i.opa i.opb } else s
  | .accepted => s
  | .answering r =>
    if i.rspReady then { s with port := .ready, received := s.received ++ [r] } else s

/-- A rising edge: reset wins over everything (R135). That it wins over the taking of a response is the model's choice
(log 21): with rsp_valid = 1 and rsp_ready = 1 at the edge, the response is dropped and the host has not taken it. -/
def clockEdge (i : PortInputs) (s : State) : State :=
  if i.rst then resetEdge s else handshake i s

/-! ### The block's moves -/

/-- Decode the sampled word and perform it: R121's order, whole (R63). -/
def performCommand (s : State) : Outcome :=
  match decode s.request.cmd with
  | .instr i => exec i s
  | .illegal _ => illegalCommand s

/-- The block's move on the accepted command; nothing to do when none is accepted. -/
def performTurn (s : State) : Outcome :=
  if s.port = .accepted then performCommand s else .next s

/-- The block's move of one cell; nothing to do when no GEN is in progress. -/
def cellTurn (s : State) : State :=
  if generating s then genCell (genStart s) else s

/-! ### Whose turn it is -/

/-- The next turn (log 4): with nothing scheduled the block performs what it has accepted, and otherwise the host idles. -/
def nextTurn (s : State) : Turn :=
  match s.turns with
  | t :: _ => t
  | [] => if s.port = .accepted then .perform else .edge .idle

/-- The schedule without its next turn. -/
def popTurn (s : State) : State := { s with turns := s.turns.tail }

/-- One turn. -/
def takeTurn (t : Turn) (s : State) : Outcome :=
  match t with
  | .edge i => .next (clockEdge i s)
  | .perform => performTurn s
  | .cell => .next (cellTurn s)

/-- Place a command word as the accepted command, to be performed in the very next turn (log 12). The operand buses keep
what they hold. -/
def placeCommand (s : State) (cmd : BitVec 16) : State :=
  { s with port := .accepted, request := { s.request with cmd := cmd }, turns := .perform :: s.turns }

end Sys2Proof.Machine
end

