-- ==== Sys2Proof/Machine/Step.lean ====
section
/-! DEFINITION. One step of the machine: the next turn of the schedule. -/

namespace Sys2Proof.Machine

/-- `s` with the word stored where the block takes its next command from: the sampled request. -/
def State.withFetchWord (s : State) (nbits w : Nat) : State :=
  placeCommand s (BitVec.ofNat 16 (w % 2 ^ nbits))

/-- One step. Parameters that fail R20 make no instance, and the step is refused. -/
def step (s : State) : Host.Outcome State Fault Refusal :=
  if s.cfg.legal then takeTurn (nextTurn s) (popTurn s) else .refused .parametersIllegal

end Sys2Proof.Machine
end

