-- ==== Sys2Proof/Machine/Assembler.lean ====
section
/-! DEFINITION. The assembler's lines, pseudo-commands and listing (30_encoding.md R70, R71). It is no part of the step:
it makes the requests a host presents. Text is a list of characters, so that the kernel can evaluate it (log 17). -/

namespace Sys2Proof.Machine

/-- One line: a command, or one of the pseudo-commands of R71. -/
inductive AsmLine where
  | ilv (h a b : Nat)
  | val (h i j : Nat)
  | gen
  | rdl (r c : Nat)
  | rdr (sel : Nat)
  | status
  | valg (i j : Nat)
  | ilvg (a b : Nat)
deriving DecidableEq, Repr

/-- R71's expansions; an assembler that does not know HOB refuses VALG and ILVG. -/
def expandPseudo (hob : Option Nat) : AsmLine → Option AsmLine
  | .status => some (.rdr 0)
  | .valg i j => hob.map fun h => .val h i j
  | .ilvg a b => hob.map fun h => .ilv h a b
  | line => some line

/-- A request, if HS is 0 to 63 and both operands are W-bit numbers (R70). -/
def requestOf (w hs : Nat) (op : BitVec 4) (a b : Nat) : Option Request :=
  if hs ≤ 63 ∧ a < 2 ^ w ∧ b < 2 ^ w then
    some { cmd := commandWord 0 (BitVec.ofNat 6 hs) op, opa := zext a, opb := zext b }
  else none

/-- The encoding of an expanded line for a datapath of width `w`; operands that do not matter are written as 0 (R70). -/
def assembleCommand (w : Nat) : AsmLine → Option Request
  | .ilv h a b => requestOf w h 0x1 a b
  | .val h i j => requestOf w h 0x2 i j
  | .gen => requestOf w 0 0x3 0 0
  | .rdl r c => requestOf w 0 0x4 r c
  | .rdr sel => requestOf w sel 0x5 0 0
  | .status | .valg _ _ | .ilvg _ _ => none

/-- The request of a line (R70, R71). -/
def assemble (w : Nat) (hob : Option Nat) (line : AsmLine) : Option Request :=
  (expandPseudo hob line).bind (assembleCommand w)

/-! ### Text -/

/-- A finished token, given its characters last first. -/
def flushToken : List Char → List (List Char)
  | [] => []
  | c :: cs => [(c :: cs).reverse]

/-- The tokens of a line: words and commas; a `;` starts a comment (R70). -/
def tokensFrom : List Char → List Char → List (List Char)
  | word, [] => flushToken word
  | word, c :: cs =>
    if c = ';' then flushToken word
    else if c = ' ' || c = '\t' then flushToken word ++ tokensFrom [] cs
    else if c = ',' then flushToken word ++ [[',']] ++ tokensFrom [] cs
    else tokensFrom (c :: word) cs

/-- The value of a digit in a base of at most sixteen. -/
def digitValue (base : Nat) (c : Char) : Option Nat :=
  let d :=
    if '0' ≤ c ∧ c ≤ '9' then c.toNat - 48
    else if 'A' ≤ c ∧ c ≤ 'F' then c.toNat - 55
    else if 'a' ≤ c ∧ c ≤ 'f' then c.toNat - 87
    else base
  if d < base then some d else none

/-- The digits after a number already read. -/
def digitsFrom (base : Nat) : Nat → List Char → Option Nat
  | n, [] => some n
  | n, c :: cs => (digitValue base c).bind fun d => digitsFrom base (n * base + d) cs

/-- A number with at least one digit. -/
def readDigits (base : Nat) : List Char → Option Nat
  | [] => none
  | c :: cs => digitsFrom base 0 (c :: cs)

/-- A decimal or `0x` hexadecimal number (R70: a, b, i, j, r, c). -/
def readNumber : List Char → Option Nat
  | '0' :: 'x' :: cs => readDigits 16 cs
  | cs => readDigits 10 cs

/-- The register names of sel 0 to 10, in order (R27, R70). -/
def registerNames : List (List Char) :=
  ["STATUS", "CFG_N", "CFG_M", "CFG_TW", "CFG_HOB", "CFG_W", "CFG_FLAGS", "FAULT_CMD", "FAULT_A", "FAULT_B",
    "FAULT_VAL"].map String.toList

/-- The place of a name in a list of names, counted from `n`. -/
def nameIndex (name : List Char) : Nat → List (List Char) → Option Nat
  | _, [] => none
  | n, x :: xs => if x = name then some n else nameIndex name (n + 1) xs

/-- A sel: decimal, or a register's name (R70). -/
def readSel (cs : List Char) : Option Nat := (nameIndex cs 0 registerNames).or (readDigits 10 cs)

/-- `h, x, y` -/
def readThree (mk : Nat → Nat → Nat → AsmLine) (h x y : List Char) : Option AsmLine :=
  (readDigits 10 h).bind fun h => (readNumber x).bind fun x => (readNumber y).map fun y => mk h x y

/-- `x, y` -/
def readTwo (mk : Nat → Nat → AsmLine) (x y : List Char) : Option AsmLine :=
  (readNumber x).bind fun x => (readNumber y).map fun y => mk x y

/-- A line from its tokens: a mnemonic followed by its operands, with commas between operands (R70, R71). -/
def lineOfTokens : List (List Char) → Option AsmLine
  | [['I', 'L', 'V'], h, [','], a, [','], b] => readThree .ilv h a b
  | [['V', 'A', 'L'], h, [','], i, [','], j] => readThree .val h i j
  | [['G', 'E', 'N']] => some .gen
  | [['R', 'D', 'L'], r, [','], c] => readTwo .rdl r c
  | [['R', 'D', 'R'], sel] => (readSel sel).map .rdr
  | [['S', 'T', 'A', 'T', 'U', 'S']] => some .status
  | [['V', 'A', 'L', 'G'], i, [','], j] => readTwo .valg i j
  | [['I', 'L', 'V', 'G'], a, [','], b] => readTwo .ilvg a b
  | _ => none

/-- The line a text holds, if it holds one. -/
def parseLine (text : List Char) : Option AsmLine := lineOfTokens (tokensFrom [] text)

/-- The hexadecimal digit of a number below sixteen. -/
def hexDigit (d : Nat) : Char := if d < 10 then Char.ofNat (48 + d) else Char.ofNat (55 + d)

/-- At least `width` hexadecimal digits, most significant first, of a number below 16^fuel. -/
def hexDigits : Nat → Nat → Nat → List Char
  | 0, _, _ => []
  | fuel + 1, width, n =>
    if n = 0 ∧ width = 0 then [] else hexDigits fuel (width - 1) (n / 16) ++ [hexDigit (n % 16)]

/-- A listing's encoding of a command: `cmd opa opb` in hexadecimal (R70). -/
def listing (r : Request) : List Char :=
  ['0', 'x'] ++ hexDigits 16 4 r.cmd.toNat ++ [' ', '0', 'x'] ++ hexDigits 16 1 r.opa.toNat
    ++ [' ', '0', 'x'] ++ hexDigits 16 1 r.opb.toNat

/-- The request of a line of text (R70, R71). -/
def assembleText (w : Nat) (hob : Option Nat) (text : String) : Option Request :=
  (parseLine text.toList).bind (assemble w hob)

end Sys2Proof.Machine
end

