-- ==== Sys2Proof/Safety.lean ====
section
/-! DEFINITION. The terms claims are made in: the answers and the fault record a command leaves, the invariants of the
state, and what a run reaches. -/

namespace Sys2Proof.Machine

/-! ### What a command leaves -/

/-- `s` with a response pending and nothing else changed (R36, R67). -/
def State.answered (s : State) (err : Bool) (data : Word) : State :=
  { s with port := .answering { err := err, data := data } }

/-- `s` after fault entry (R119): PHASE, CAUSE and the record written, the response (1, 0) pending, nothing else
changed. -/
def State.faulted (s : State) (c : Cause) (a b val : Word) : State :=
  { s with
    phase := .fault, cause := c, fcmd := s.request.cmd, fa := a, fb := b, fval := val,
    port := .answering { err := true, data := 0 } }

/-- The next turn is a rising edge with rst = 1 (R135). -/
def State.resetNext (s : State) : Bool :=
  match nextTurn s with
  | .edge i => i.rst
  | _ => false

/-! ### Cells -/

/-- (i', j') is visited before (i, j) in row-major order (R92). -/
def visitedBefore (i' j' i j : Nat) : Prop := i' < i ∨ (i' = i ∧ j' < j)

/-- Every cell's wide value fits in TW bits (R94). -/
def allFit (p : Params) : Prop := ∀ i j, i < p.N → j < p.M → (wideValue p i j).toNat < 2 ^ p.TW

/-- `x` is what R95 stores for cell (i, j): the value itself when it fits; otherwise, which needs RANGE_CHECK false, the
value mod 2^TW in TRUNCATE, and some TW-bit element in ANY. -/
def elementOf (p : Params) (i j : Nat) (x : Word) : Prop :=
  x.toNat < 2 ^ p.TW ∧
    ((wideValue p i j).toNat < 2 ^ p.TW → x = wideValue p i j) ∧
    (2 ^ p.TW ≤ (wideValue p i j).toNat →
      p.rangeCheck = false ∧ (p.overflow = .truncate → x = truncTo p.TW (wideValue p i j)))

/-- The matrix of wide values as the spec writes it, row by row (R15). -/
def matrixOf (p : Params) : List (List Nat) :=
  (List.range p.N).map fun i => (List.range p.M).map fun j => (wideValue p i j).toNat

/-! ### Invariants -/

/-- R25 and R26: the fault record is clear whenever PHASE ≠ FAULT, and a cause is recorded whenever PHASE = FAULT. -/
def State.FaultRecordInv (s : State) : Prop :=
  (s.phase ≠ .fault → s.cause = .none ∧ s.fcmd = 0 ∧ s.fa = 0 ∧ s.fb = 0 ∧ s.fval = 0) ∧
    (s.phase = .fault → s.cause ≠ .none)

/-- R32, R33, R41 and R95: the LUT is in canonical form and lists cells only, each with the element R95 gives it; in DONE
every cell has one; in EMPTY with no fill begun none has; during a fill, which is an accepted GEN's in EMPTY, exactly
the cells before the cursor have one. -/
def State.LutInv (s : State) : Prop :=
  Memory.wf s.lut = true ∧
    (∀ k x, Memory.read s.lut k = some x → k < s.cfg.cells) ∧
    (∀ i j x, i < s.cfg.N → j < s.cfg.M → lutRead s i j = some x → elementOf s.cfg i j x) ∧
    (s.phase = .done → ∀ i j, i < s.cfg.N → j < s.cfg.M → ∃ x, lutRead s i j = some x) ∧
    (s.phase = .empty → s.fill = none → s.lut = []) ∧
    (∀ c, s.fill = some c →
      generating s = true ∧ c.row < s.cfg.N ∧ c.col < s.cfg.M ∧
        ∀ i j, i < s.cfg.N → j < s.cfg.M →
          ((∃ x, lutRead s i j = some x) ↔ visitedBefore i j c.row c.col))

/-- R9, R26, R32 and R55: every value that crosses the port or is recorded is a W-bit value, and every element of the
LUT a TW-bit one. -/
def State.WidthInv (s : State) : Prop :=
  (s.fa.toNat < 2 ^ s.cfg.W ∧ s.fb.toNat < 2 ^ s.cfg.W ∧ s.fval.toNat < 2 ^ s.cfg.W) ∧
    (s.request.opa.toNat < 2 ^ s.cfg.W ∧ s.request.opb.toNat < 2 ^ s.cfg.W) ∧
    (∀ r, s.port = .answering r → r.data.toNat < 2 ^ s.cfg.W) ∧
    (∀ r ∈ s.received, r.data.toNat < 2 ^ s.cfg.W) ∧
    (∀ k x, Memory.read s.lut k = some x → x.toNat < 2 ^ s.cfg.TW)

/-- R68: no response ever has rsp_err = 1 with nonzero data. -/
def State.ResponseInv (s : State) : Prop :=
  (∀ r, s.port = .answering r → r.err = true → r.data = 0) ∧ ∀ r ∈ s.received, r.err = true → r.data = 0

/-- The machine is an instance (R20) and keeps all of the above. -/
def State.Inv (s : State) : Prop :=
  s.cfg.legal = true ∧ s.FaultRecordInv ∧ s.LutInv ∧ s.WidthInv ∧ s.ResponseInv

/-! ### Runs -/

/-- The instance with parameters `p`, just reset, with the moves that are to come (R145: a run is a reset followed by a
sequence of commands). -/
def runFrom (p : Params) (turns : List Turn) : State := { State.resetOf p with turns := turns }

end Sys2Proof.Machine
end

