-- ==== Sys2Proof/Certificates/Slice0/Obligations.lean ====
section
/-! DEFINITION. The statements for the provers. Each docstring names the rule of spec/ it formalises. Where a statement
quantifies over states without a premise, it holds of states no run reaches as well. -/

open Sys2Proof Sys2Proof.Machine

/-! ### Parameters and derived constants -/

/-- R13: clog2(x) for x ≥ 1 is the least B with 2^B ≥ x, with R13's examples; and trunc_TW(v) is v mod 2^TW. -/
def Obligations.ClogIsLeastExponent : Prop :=
  (∀ x, 1 ≤ x → x ≤ 2 ^ clog2 x ∧ ∀ b, x ≤ 2 ^ b → clog2 x ≤ b) ∧
    (∀ (w : Nat) (v : Word), (truncTo w v).toNat = v.toNat % 2 ^ w)

/-- R90: B = clog2(max(N, M)) = floor(log2(2·max(N, M) − 1)), HOB = max(2·B − 1, 0), and the table of sizes. -/
def Obligations.HobDerivation : Prop :=
  (∀ m, 1 ≤ m → clog2 m = Nat.log2 (2 * m - 1)) ∧
    (∀ p : Params, p.hob = if max p.N p.M ≤ 1 then 0 else 2 * clog2 (max p.N p.M) - 1) ∧
    (∀ m k, 1 ≤ k → 2 ^ (k - 1) < m → m ≤ 2 ^ k → clog2 m = k) ∧
    (∀ p : Params, p.legal = true → p.hob < p.W) ∧
    (∀ s : State, s.cfg.legal = true → ∃ v, exec (.rdr 4) s = .next (s.answered false v) ∧ v.toNat = s.cfg.hob)

/-- R20: an instance exists exactly when items 1 to 4 hold, and then it is just reset; a record that fails the check
yields none. -/
def Obligations.ElaborationCheck : Prop :=
  ∀ p : Params,
    (p.legal = true ↔
      (1 ≤ p.N ∧ 1 ≤ p.M) ∧ (16 ≤ p.W ∧ p.W ≤ 64) ∧ (1 ≤ p.TW ∧ p.TW ≤ p.W) ∧
        2 * clog2 (max p.N p.M) - 1 < p.W) ∧
      (p.legal = true → elaborate p = some (State.resetOf p)) ∧
      (p.legal = false → elaborate p = none)

/-! ### Encoding -/

/-- R72: the example encodings, each from its source line through the assembler (W = 64) and through the decoder; and the
four illegal words. -/
def Obligations.ExampleEncodings : Prop :=
  (assembleText 64 none "ILV 5, 1, 0" = some ⟨0x0051, 1, 0⟩ ∧ decode 0x0051 = .instr (.ilv 5)) ∧
    (assembleText 64 none "ILV 0, 1, 1" = some ⟨0x0001, 1, 1⟩ ∧ decode 0x0001 = .instr (.ilv 0)) ∧
    (assembleText 64 none "VAL 1, 0, 1" = some ⟨0x0012, 0, 1⟩ ∧ decode 0x0012 = .instr (.val 1)) ∧
    (assembleText 64 none "VAL 3, 1, 0" = some ⟨0x0032, 1, 0⟩ ∧ decode 0x0032 = .instr (.val 3)) ∧
    (assembleText 64 none "VAL 63, 0, 1" = some ⟨0x03F2, 0, 1⟩ ∧ decode 0x03F2 = .instr (.val 63)) ∧
    (assembleText 64 none "GEN" = some ⟨0x0003, 0, 0⟩ ∧ decode 0x0003 = .instr .gen) ∧
    (assembleText 64 none "RDL 3, 2" = some ⟨0x0004, 3, 2⟩ ∧ decode 0x0004 = .instr .rdl) ∧
    (assembleText 64 none "RDR STATUS" = some ⟨0x0005, 0, 0⟩ ∧ decode 0x0005 = .instr (.rdr 0)) ∧
    (assembleText 64 none "RDR CFG_HOB" = some ⟨0x0045, 0, 0⟩ ∧ decode 0x0045 = .instr (.rdr 4)) ∧
    (assembleText 64 none "RDR FAULT_VAL" = some ⟨0x00A5, 0, 0⟩ ∧ decode 0x00A5 = .instr (.rdr 10)) ∧
    decode 0x0000 = .illegal .reservedOpcode ∧ decode 0x0013 = .illegal .nonzeroHs ∧
    decode 0x00B5 = .illegal .reservedRegister ∧ decode 0x0401 = .illegal .reservedBits

/-- R57, R62, R63: decoding and encoding are inverse: the word of a well-formed command decodes to the command, every field
at every value, and a word that decodes to a command is the word of that well-formed command, so it has one meaning. -/
def Obligations.DecodeAndEncodeAgree : Prop :=
  (∀ i : Instr, i.wellFormed = true → decode (encode i) = .instr i) ∧
    ∀ (w : BitVec 16) (i : Instr), decode w = .instr i → i.wellFormed = true ∧ encode i = w

/-- R62: the match and mask table says which word is which command, no word fits two mnemonics' rows, and 141 of the
65,536 words are legal. -/
def Obligations.OpcodeMap : Prop :=
  (∀ (w : BitVec 16) (i : Instr), i.wellFormed = true →
      (decode w = .instr i ↔ (opcodeRow i).fits w = true ∧ hsField w = hsOf i)) ∧
    (∀ (w : BitVec 16) (i j : Instr), (opcodeRow i).fits w = true → (opcodeRow j).fits w = true →
      opcode i = opcode j) ∧
    ∃ legal : List (BitVec 16), legal.Nodup ∧ legal.length = 141 ∧
      ∀ w, w ∈ legal ↔ ∃ i, decode w = .instr i

/-- R58, R60, R63, R64, R65: exactly the reserved encodings decode as ILLEGAL. -/
def Obligations.ReservedEncodingsAreIllegal : Prop :=
  ∀ w : BitVec 16,
    (∃ why, decode w = .illegal why) ↔
      rsvField w ≠ 0 ∨ opField w = 0 ∨ 6 ≤ (opField w).toNat ∨
        ((opField w = 3 ∨ opField w = 4) ∧ hsField w ≠ 0) ∨
        (opField w = 5 ∧ 11 ≤ (hsField w).toNat)

/-- R57, R61, R70, R71: for an instance of width W ≤ 64 a line with its numbers in range assembles to the word {0, HS, OP}
with its operands on opa and opb; the pseudo-commands assemble to RDR 0, and to VAL and ILV at the instance's HOB; an
assembler that does not know HOB refuses VALG and ILVG. -/
def Obligations.AssembledLinesDecode : Prop :=
  ∀ (w h a b : Nat) (hob : Option Nat), w ≤ 64 → h ≤ 63 → a < 2 ^ w → b < 2 ^ w →
    (∃ r, assemble w hob (.ilv h a b) = some r ∧ decode r.cmd = .instr (.ilv (BitVec.ofNat 6 h)) ∧
      r.opa.toNat = a ∧ r.opb.toNat = b) ∧
    (∃ r, assemble w hob (.val h a b) = some r ∧ decode r.cmd = .instr (.val (BitVec.ofNat 6 h)) ∧
      r.opa.toNat = a ∧ r.opb.toNat = b) ∧
    (∃ r, assemble w hob .gen = some r ∧ decode r.cmd = .instr .gen ∧ r.opa = 0 ∧ r.opb = 0) ∧
    (∃ r, assemble w hob (.rdl a b) = some r ∧ decode r.cmd = .instr .rdl ∧
      r.opa.toNat = a ∧ r.opb.toNat = b) ∧
    (h ≤ 10 → ∃ r, assemble w hob (.rdr h) = some r ∧ decode r.cmd = .instr (.rdr (BitVec.ofNat 6 h)) ∧
      r.opa = 0 ∧ r.opb = 0) ∧
    (∃ r, assemble w hob .status = some r ∧ decode r.cmd = .instr (.rdr 0) ∧ r.opa = 0 ∧ r.opb = 0) ∧
    (∃ r, assemble w (some h) (.valg a b) = some r ∧ decode r.cmd = .instr (.val (BitVec.ofNat 6 h)) ∧
      r.opa.toNat = a ∧ r.opb.toNat = b) ∧
    (∃ r, assemble w (some h) (.ilvg a b) = some r ∧ decode r.cmd = .instr (.ilv (BitVec.ofNat 6 h)) ∧
      r.opa.toNat = a ∧ r.opb.toNat = b) ∧
    assemble w none (.valg a b) = none ∧ assemble w none (.ilvg a b) = none

/-! ### One step -/

/-- A step runs the decoded command: with a command accepted and the block to move (its turn comes next, or nothing is
scheduled), the step is exec of the command its word decodes to, at the state with that turn taken off the schedule.
The schedule is the model's own (log 4). -/
def Obligations.StepRunsDecodedCommand : Prop :=
  ∀ (s : State) (i : Instr), s.cfg.legal = true → s.port = .accepted →
    decode s.request.cmd = .instr i →
    (∀ rest, s.turns = .perform :: rest → step s = exec i { s with turns := rest }) ∧
      (s.turns = [] → step s = exec i s)

/-- A word placed as the next command is what the very next step decodes and runs, in whatever state, with the operand buses
as they are (log 12). -/
def Obligations.PlacedWordRunsNext : Prop :=
  ∀ (s : State) (w : Nat) (i : Instr), s.cfg.legal = true → w < 2 ^ 16 → decodeTableWord 16 w = some i →
    step (s.withFetchWord 16 w) =
      exec i { s with port := .accepted, request := { s.request with cmd := BitVec.ofNat 16 w } }

/-- R63, R118: an accepted word that decodes as ILLEGAL raises ILLEGAL_CMD, with the word and both operand buses
recorded, unless PHASE = FAULT, where it is rejected. -/
def Obligations.IllegalWordFaults : Prop :=
  ∀ (s : State) (rest : List Turn) (why : Illegal), s.cfg.legal = true → s.port = .accepted →
    s.turns = .perform :: rest → decode s.request.cmd = .illegal why →
    (s.phase ≠ .fault → step s =
      .next ({ s with turns := rest }.faulted .illegalCmd s.request.opa s.request.opb 0)) ∧
      (s.phase = .fault → step s = .next ({ s with turns := rest }.answered true 0))

/-! ### The Bit Interleaver and the Index-to-Value Mapper -/

/-- R76: the closed form, equal to R75's loop for every a, b and h < W (W ≤ 64). -/
def Obligations.InterleaverClosedForm : Prop :=
  ∀ (a b : Word) (h p : Nat), h < 64 →
    (bitInterleave a b h).getLsbD p =
      if h < p then false
      else if (h - p) % 2 = 0 then a.getLsbD ((h - p) / 2)
      else b.getLsbD ((h - p - 1) / 2)

/-- R77: the result is below 2^(h+1); only bits 0 to floor(h/2) of a and 0 to floor((h−1)/2) of b are read; restricted to
those it is a bijection onto [0, 2^(h+1)); zero gives zero and h = 0 gives a[0]; and for every h < W an ILV out of
FAULT answers without a fault (no failure modes). -/
def Obligations.InterleaverProperties : Prop :=
  ∀ h, h < 64 →
    (∀ a b, (bitInterleave a b h).toNat < 2 ^ (h + 1)) ∧
    (∀ a b a' b' : Word, (∀ k, k ≤ h / 2 → a.getLsbD k = a'.getLsbD k) →
      (∀ k, 2 * k + 1 ≤ h → b.getLsbD k = b'.getLsbD k) → bitInterleave a b h = bitInterleave a' b' h) ∧
    (∀ y : Word, y.toNat < 2 ^ (h + 1) →
      ∃ a b : Word, (a.toNat < 2 ^ ((h + 2) / 2) ∧ b.toNat < 2 ^ ((h + 1) / 2) ∧ bitInterleave a b h = y) ∧
        ∀ a' b' : Word, a'.toNat < 2 ^ ((h + 2) / 2) → b'.toNat < 2 ^ ((h + 1) / 2) →
          bitInterleave a' b' h = y → a' = a ∧ b' = b) ∧
    bitInterleave 0 0 h = 0 ∧
    (∀ a b : Word, bitInterleave a b 0 = if a.getLsbD 0 then 1 else 0) ∧
    (∀ s : State, s.phase ≠ .fault → h < s.cfg.W →
      ∃ v, exec (.ilv (BitVec.ofNat 6 h)) s = .next (s.answered false v))

/-- R78, R79: ValueAt(i, j, h) = BitInterleave(i ^ j, i, h); it is below 2^(h+1), reads only bits 0 to floor(h/2) of i and
j, reduces as item 3 says, and for h = 2B − 1 is a bijection from [0, 2^B)² onto [0, 4^B). -/
def Obligations.MapperProperties : Prop :=
  ∀ h, h < 64 →
    (∀ i j, valueAt i j h = bitInterleave (i ^^^ j) i h) ∧
    (∀ i j, (valueAt i j h).toNat < 2 ^ (h + 1)) ∧
    (∀ i j i' j' : Word, (∀ k, k ≤ h / 2 → i.getLsbD k = i'.getLsbD k) →
      (∀ k, k ≤ h / 2 → j.getLsbD k = j'.getLsbD k) → valueAt i j h = valueAt i' j' h) ∧
    (∀ i, valueAt i i h = bitInterleave 0 i h) ∧ (∀ j, valueAt 0 j h = bitInterleave j 0 h) ∧
    valueAt 0 0 h = 0 ∧
    (∀ B, 1 ≤ B → h = 2 * B - 1 → ∀ y : Word, y.toNat < 4 ^ B →
      ∃ i j : Word, (i.toNat < 2 ^ B ∧ j.toNat < 2 ^ B ∧ valueAt i j h = y) ∧
        ∀ i' j' : Word, i'.toNat < 2 ^ B → j'.toNat < 2 ^ B → valueAt i' j' h = y → i' = i ∧ j' = j)

/-- R80: ILV's word, its response with nothing but the response changed, its fault, its rejection in FAULT, the reserved
words, and the corner cases (h = 0; zero operands; all ones at h = W − 1; opa = opb; bits that are ignored; no overflow). -/
def Obligations.IlvBehaviour : Prop :=
  ∀ (s : State) (h : BitVec 6),
    (encode (.ilv h) = (0#6 ++ h) ++ 1#4 ∧ encode (.ilv h) &&& 0xFC0F = 0x0001 ∧
      ∀ w, rsvField w ≠ 0 → ∃ why, decode w = .illegal why) ∧
    (s.phase ≠ .fault → h.toNat < s.cfg.W →
      exec (.ilv h) s = .next (s.answered false (bitInterleave s.request.opa s.request.opb h.toNat)) ∧
        (bitInterleave s.request.opa s.request.opb h.toNat).toNat < 2 ^ (h.toNat + 1) ∧
        (h = 0 → exec (.ilv h) s = .next (s.answered false (if s.request.opa.getLsbD 0 then 1 else 0))) ∧
        (s.request.opa = 0 → s.request.opb = 0 → exec (.ilv h) s = .next (s.answered false 0)) ∧
        (h.toNat + 1 = s.cfg.W → s.request.opa.toNat = 2 ^ s.cfg.W - 1 → s.request.opb.toNat = 2 ^ s.cfg.W - 1 →
          ∃ v, exec (.ilv h) s = .next (s.answered false v) ∧ v.toNat = 2 ^ s.cfg.W - 1) ∧
        (s.request.opa = s.request.opb →
          exec (.ilv h) s = .next (s.answered false (bitInterleave s.request.opa s.request.opa h.toNat))) ∧
        (∀ s' : State, s'.phase ≠ .fault → h.toNat < s'.cfg.W →
          (∀ k, k ≤ h.toNat / 2 → s.request.opa.getLsbD k = s'.request.opa.getLsbD k) →
          (∀ k, 2 * k + 1 ≤ h.toNat → s.request.opb.getLsbD k = s'.request.opb.getLsbD k) →
          ∃ v, exec (.ilv h) s = .next (s.answered false v) ∧ exec (.ilv h) s' = .next (s'.answered false v)) ∧
        (h = 3 → s.request.opa = 1 → s.request.opb = 1 → exec (.ilv h) s = .next (s.answered false 12))) ∧
    (s.phase ≠ .fault → s.cfg.W ≤ h.toNat →
      exec (.ilv h) s = .next (s.faulted .hobRange s.request.opa s.request.opb (zext h.toNat))) ∧
    (s.phase = .fault → exec (.ilv h) s = .next (s.answered true 0))

/-- R81: VAL's word, its response (whatever N and M are, and not narrowed) with nothing but the response changed, its
fault, its rejection in FAULT, the reserved words, and the corner cases. -/
def Obligations.ValBehaviour : Prop :=
  ∀ (s : State) (h : BitVec 6),
    (encode (.val h) = (0#6 ++ h) ++ 2#4 ∧ encode (.val h) &&& 0xFC0F = 0x0002 ∧
      ∀ w, rsvField w ≠ 0 → ∃ why, decode w = .illegal why) ∧
    (s.phase ≠ .fault → h.toNat < s.cfg.W →
      exec (.val h) s =
        .next (s.answered false (bitInterleave (s.request.opa ^^^ s.request.opb) s.request.opa h.toNat)) ∧
        (s.request.opa = s.request.opb →
          exec (.val h) s = .next (s.answered false (bitInterleave 0 s.request.opa h.toNat))) ∧
        (s.request.opa = 0 →
          exec (.val h) s = .next (s.answered false (bitInterleave s.request.opb 0 h.toNat))) ∧
        (h = 0 → exec (.val h) s =
          .next (s.answered false (if (s.request.opa ^^^ s.request.opb).getLsbD 0 then 1 else 0))) ∧
        (∀ s' : State, s'.phase ≠ .fault → h.toNat < s'.cfg.W →
          (∀ k, k ≤ h.toNat / 2 → s.request.opa.getLsbD k = s'.request.opa.getLsbD k) →
          (∀ k, k ≤ h.toNat / 2 → s.request.opb.getLsbD k = s'.request.opb.getLsbD k) →
          ∃ v, exec (.val h) s = .next (s.answered false v) ∧ exec (.val h) s' = .next (s'.answered false v)) ∧
        (h = 3 → s.request.opa = 1 → s.request.opb = 0 → exec (.val h) s = .next (s.answered false 12)) ∧
        (h = 3 → (s.request.opa = 4 ∧ s.request.opb = 4) ∨ (s.request.opa = 8 ∧ s.request.opb = 0) →
          exec (.val h) s = .next (s.answered false 0))) ∧
    (s.phase ≠ .fault → s.cfg.W ≤ h.toNat →
      exec (.val h) s = .next (s.faulted .hobRange s.request.opa s.request.opb (zext h.toNat))) ∧
    (s.phase = .fault → exec (.val h) s = .next (s.answered true 0))

/-- R131: ILV and VAL raise no fault except HOB_RANGE, and that one only when h ≥ W; ILLEGAL_CMD comes from decode, before
them. Out of FAULT they always answer. -/
def Obligations.InterleaveCommandsOnlyHobRange : Prop :=
  ∀ (s : State) (h : BitVec 6) (i : Instr), i = .ilv h ∨ i = .val h → s.phase ≠ .fault →
    ∃ t, exec i s = .next t ∧
      (t.phase = .fault → t.cause = .hobRange ∧ s.cfg.W ≤ h.toNat) ∧
      (t.phase ≠ .fault → ∃ v, t = s.answered false v)

/-! ### GEN -/

/-- R95, R96: in EMPTY, when every value fits or the check is off, GEN completes: PHASE is DONE, the response is (0, 0),
every cell holds the element R95 gives it and nothing outside the cells holds one, and nothing else changes but the
count of free draws (log 11), which needs OVERFLOW_MODE = ANY with the check off. -/
def Obligations.GenFillsTheMatrix : Prop :=
  ∀ s : State, s.cfg.legal = true → s.phase = .empty → s.fill = none →
    (s.cfg.rangeCheck = true → allFit s.cfg) →
    ∃ (lut : Memory) (draws : Nat),
      exec .gen s =
        .next { s with phase := .done, lut := lut, draws := draws, port := .answering { err := false, data := 0 } } ∧
      (∀ i j, i < s.cfg.N → j < s.cfg.M →
        ∃ x, Memory.read lut (i * s.cfg.M + j) = some x ∧ elementOf s.cfg i j x) ∧
      (∀ k, s.cfg.N * s.cfg.M ≤ k → Memory.read lut k = none) ∧
      (s.cfg.rangeCheck = true ∨ s.cfg.overflow = .truncate → draws = s.draws)

/-- R92, R94, R98, R118: with the check on, GEN raises RANGE at the first cell in row-major order whose value does not fit,
records the cell and its value, and leaves no LUT element with a value; nothing else changes. -/
def Obligations.GenRangeFaultAtFirstCell : Prop :=
  ∀ (s : State) (i j : Nat), s.cfg.legal = true → s.phase = .empty → s.fill = none →
    s.cfg.rangeCheck = true → i < s.cfg.N → j < s.cfg.M →
    2 ^ s.cfg.TW ≤ (wideValue s.cfg i j).toNat →
    (∀ i' j', i' < s.cfg.N → j' < s.cfg.M → visitedBefore i' j' i j →
      (wideValue s.cfg i' j').toNat < 2 ^ s.cfg.TW) →
    exec .gen s = .next ({ s with lut := [] }.faulted .range (zext i) (zext j) (wideValue s.cfg i j))

/-- R97: GEN in DONE writes nothing, leaves PHASE = DONE and responds (0, 0). -/
def Obligations.GenInDoneWritesNothing : Prop :=
  ∀ s : State, s.phase = .done → exec .gen s = .next (s.answered false 0)

/-- R47, R98: GEN in EMPTY ends whole: every element has a value and PHASE is DONE, or PHASE is FAULT and no element has
one. -/
def Obligations.GenAllOrNothing : Prop :=
  ∀ s : State, s.cfg.legal = true → s.phase = .empty → s.LutInv →
    ∃ t, exec .gen s = .next t ∧
      ((t.phase = .done ∧ t.port = .answering { err := false, data := 0 } ∧
          ∀ i j, i < s.cfg.N → j < s.cfg.M → ∃ x, lutRead t i j = some x) ∨
        (t.phase = .fault ∧ t.cause = .range ∧ t.port = .answering { err := true, data := 0 } ∧
          ∀ k, Memory.read t.lut k = none))

/-- R33, R47: the cell-by-cell fill and the atomic one are one: any number of cell steps of a GEN in progress, and then the
rest at once if it is not over, end in the very state GEN performed whole ends in. That both ways exist is the
model's choice (log 4, log 5). -/
def Obligations.CellStepsRefineAtomicGen : Prop :=
  ∀ (s : State) (k : Nat), s.cfg.legal = true → s.LutInv → generating s = true →
    ∃ t u, exec .gen s = .next t ∧ core.run k { s with turns := List.replicate k .cell ++ s.turns } = .next u ∧
      (generating u = true → exec .gen u = .next t) ∧
      (generating u = false → u = t)

/-- R143: a GEN in progress is answered after at most N·M cell steps. -/
def Obligations.GenAnswersWithinItsCells : Prop :=
  ∀ s : State, s.cfg.legal = true → s.LutInv → generating s = true →
    ∃ (u : State) (r : Response),
      core.run s.cfg.cells { s with turns := List.replicate s.cfg.cells .cell ++ s.turns } = .next u ∧
        u.port = .answering r

/-- R104: with the check on, GEN completes exactly when every value is below 2^TW; for N = M = 2^B with B ≥ 1, exactly
when TW ≥ 2·B, the largest value being 4^B − 1 = N·M − 1; the largest value of 3×3 is 14, and of 1×2 it is 2. -/
def Obligations.GenCompletesExactlyWhenValuesFit : Prop :=
  ∀ s : State, s.cfg.legal = true → s.phase = .empty → s.fill = none → s.cfg.rangeCheck = true →
    ((∃ t, exec .gen s = .next t ∧ t.phase = .done) ↔ allFit s.cfg) ∧
      (∀ B, 1 ≤ B → s.cfg.N = 2 ^ B → s.cfg.M = 2 ^ B →
        ((∃ t, exec .gen s = .next t ∧ t.phase = .done) ↔ 2 * B ≤ s.cfg.TW) ∧
          4 ^ B = s.cfg.N * s.cfg.M ∧
          (∃ i j, i < s.cfg.N ∧ j < s.cfg.M ∧ (wideValue s.cfg i j).toNat = 4 ^ B - 1) ∧
          ∀ i j, i < s.cfg.N → j < s.cfg.M → (wideValue s.cfg i j).toNat ≤ 4 ^ B - 1) ∧
      (s.cfg.N = 3 → s.cfg.M = 3 → (wideValue s.cfg 1 2).toNat = 14 ∧
        ∀ i j, i < 3 → j < 3 → (wideValue s.cfg i j).toNat ≤ 14) ∧
      (s.cfg.N = 1 → s.cfg.M = 2 → (wideValue s.cfg 0 1).toNat = 2 ∧
        ∀ j, j < 2 → (wideValue s.cfg 0 j).toNat ≤ 2)

/-- R105: an 8×8 matrix of 4-bit elements with the check on: RANGE at cell (0, 1) with value 32, the value of cell (0, 0)
being 0. -/
def Obligations.NarrowTypeScenario : Prop :=
  ∀ s : State, s.cfg.legal = true → s.cfg.N = 8 → s.cfg.M = 8 → s.cfg.TW = 4 → s.cfg.rangeCheck = true →
    s.phase = .empty → s.fill = none →
    wideValue s.cfg 0 0 = 0 ∧ wideValue s.cfg 0 1 = 32 ∧
      exec .gen s = .next ({ s with lut := [] }.faulted .range 0 1 32)

/-- R100: for N = M = 2^B, a GEN that completes with TW ≥ 2·B, or B = 0, leaves each value 0 to N·M − 1 in the LUT
exactly once. -/
def Obligations.SquareMatrixIsPermutation : Prop :=
  ∀ (s t : State) (B : Nat), s.cfg.legal = true → s.phase = .empty → s.fill = none →
    s.cfg.N = 2 ^ B → s.cfg.M = 2 ^ B → 2 * B ≤ s.cfg.TW → exec .gen s = .next t →
    t.phase = .done ∧
      ∀ v, v < s.cfg.N * s.cfg.M →
        ∃ i j, (i < s.cfg.N ∧ j < s.cfg.M ∧ ∃ x, lutRead t i j = some x ∧ x.toNat = v) ∧
          ∀ i' j', i' < s.cfg.N → j' < s.cfg.M → (∃ x, lutRead t i' j' = some x ∧ x.toNat = v) →
            i' = i ∧ j' = j

/-- R100's limits: for N = M = 2^B no value needs narrowing exactly when TW ≥ 2·B or B = 0; and the property fails off
the squares of powers of two: (1, 2) gives [[0, 2]], and 3×3 has the value 14. -/
def Obligations.PermutationLimits : Prop :=
  (∀ (p : Params) (B : Nat), p.legal = true → p.N = 2 ^ B → p.M = 2 ^ B →
    (allFit p ↔ 2 * B ≤ p.TW ∨ B = 0)) ∧
    ∀ p : Params,
      (p.N = 1 → p.M = 2 → wideValue p 0 0 = 0 ∧ wideValue p 0 1 = 2) ∧
        (p.N = 3 → p.M = 3 → wideValue p 1 2 = 14)

/-- R101: for every legal N and M the wide values are pairwise distinct and below 4^B, and the matrix is the top-left corner
of the one of size 2^B. -/
def Obligations.ValuesDistinctAndContained : Prop :=
  ∀ p : Params, p.legal = true →
    (∀ i j, i < p.N → j < p.M → (wideValue p i j).toNat < 4 ^ p.indexBits) ∧
    (∀ i j i' j', i < p.N → j < p.M → i' < p.N → j' < p.M → wideValue p i j = wideValue p i' j' → i = i' ∧ j = j') ∧
    (∀ i j, i < p.N → j < p.M →
      wideValue p i j = wideValue { p with N := 2 ^ p.indexBits, M := 2 ^ p.indexBits } i j) ∧
    (p.N = 2 → p.M = 4 → matrixOf p = [[0, 8, 2, 10], [12, 4, 14, 6]]) ∧
    (p.N = 4 → p.M = 2 → matrixOf p = [[0, 8], [12, 4], [3, 11], [15, 7]]) ∧
    (p.N = 3 → p.M = 3 → matrixOf p = [[0, 8, 2], [12, 4, 14], [3, 11, 1]])

/-- R102: self-similarity of the square matrices: G_2n(i, j) = 4·G_n(i mod n, j mod n) + G_2(i div n, j div n), with
G_2 = [[0, 2], [3, 1]]. -/
def Obligations.SelfSimilarity : Prop :=
  ∀ p : Params,
    matrixOf { p with N := 2, M := 2 } = [[0, 2], [3, 1]] ∧
      ∀ k i j : Nat, { p with N := 2 * 2 ^ k, M := 2 * 2 ^ k }.legal = true → i < 2 * 2 ^ k → j < 2 * 2 ^ k →
        (wideValue { p with N := 2 * 2 ^ k, M := 2 * 2 ^ k } i j).toNat =
          4 * (wideValue { p with N := 2 ^ k, M := 2 ^ k } (i % 2 ^ k) (j % 2 ^ k)).toNat +
            (wideValue { p with N := 2, M := 2 } (i / 2 ^ k) (j / 2 ^ k)).toNat

/-- R103: with OVERFLOW_MODE = TRUNCATE, or when no value needs narrowing, the LUT after a GEN that completes depends on N, M
and TW alone: not on W, RANGE_CHECK, or anything the block held before. -/
def Obligations.GenIsDeterministic : Prop :=
  ∀ s s' t t' : State, s.cfg.legal = true → s'.cfg.legal = true →
    s.cfg.N = s'.cfg.N → s.cfg.M = s'.cfg.M → s.cfg.TW = s'.cfg.TW →
    (s.cfg.overflow = .truncate ∧ s'.cfg.overflow = .truncate) ∨ allFit s.cfg →
    s.phase = .empty → s'.phase = .empty → s.fill = none → s'.fill = none →
    exec .gen s = .next t → exec .gen s' = .next t' → t.phase = .done → t'.phase = .done → t.lut = t'.lut

/-! ### RDL and RDR -/

/-- R99: RDL's word, its reserved words, its four outcomes in their order, each with everything it leaves, that a second RDL of
the cell gives the same answer, and the rule's example. The element read is the one R95 gives, zero-extended. -/
def Obligations.RdlBehaviour : Prop :=
  ∀ s : State,
    (encode .rdl = 0x0004 ∧ decode 0x0004 = .instr .rdl ∧
      ∀ w, opField w = 4 → w ≠ 0x0004 → ∃ why, decode w = .illegal why) ∧
    (s.phase = .fault → exec .rdl s = .next (s.answered true 0)) ∧
    (s.phase = .empty → exec .rdl s = .next (s.faulted .notReady s.request.opa s.request.opb 0)) ∧
    (s.phase = .done → (s.cfg.N ≤ s.request.opa.toNat ∨ s.cfg.M ≤ s.request.opb.toNat) →
      exec .rdl s = .next (s.faulted .badIndex s.request.opa s.request.opb 0)) ∧
    (s.phase = .done → s.LutInv → s.request.opa.toNat < s.cfg.N → s.request.opb.toNat < s.cfg.M →
      ∃ x, elementOf s.cfg s.request.opa.toNat s.request.opb.toNat x ∧
        lutRead s s.request.opa.toNat s.request.opb.toNat = some x ∧
        exec .rdl s = .next (s.answered false x) ∧
        exec .rdl (s.answered false x) = .next (s.answered false x) ∧
        (s.cfg.N = 4 → s.cfg.M = 4 → s.cfg.TW = 8 → s.request.opa = 1 → s.request.opb = 2 → x = 14))

/-- R82: VAL at h = HOB answers the wide value GEN computes for the cell; and in DONE the element RDL answers is that value
mod 2^TW, when OVERFLOW_MODE is TRUNCATE or the value fits. -/
def Obligations.RdlAgreesWithVal : Prop :=
  ∀ s : State, s.cfg.legal = true → s.request.opa.toNat < s.cfg.N → s.request.opb.toNat < s.cfg.M →
    (s.phase ≠ .fault →
      exec (.val (BitVec.ofNat 6 s.cfg.hob)) s =
        .next (s.answered false (wideValue s.cfg s.request.opa.toNat s.request.opb.toNat))) ∧
    (s.LutInv → s.phase = .done →
      ∃ x, exec .rdl s = .next (s.answered false x) ∧
        (s.cfg.overflow = .truncate ∨
            (wideValue s.cfg s.request.opa.toNat s.request.opb.toNat).toNat < 2 ^ s.cfg.TW →
          x.toNat = (wideValue s.cfg s.request.opa.toNat s.request.opb.toNat).toNat % 2 ^ s.cfg.TW))

/-- R27 to R31: what RDR answers for each of the eleven registers, in every phase, with nothing but the response changed:
STATUS from the codes of PHASE and CAUSE, the constants, the flags, and the fault record, which reads 0 out of FAULT. -/
def Obligations.RdrReadsEveryRegister : Prop :=
  ∀ s : State, s.cfg.legal = true →
    (∃ v, exec (.rdr 0) s = .next (s.answered false v) ∧
      v.toNat = 16 * s.cause.code.toNat + s.phase.code.toNat) ∧
    (∃ v, exec (.rdr 1) s = .next (s.answered false v) ∧ v.toNat = s.cfg.N) ∧
    (∃ v, exec (.rdr 2) s = .next (s.answered false v) ∧ v.toNat = s.cfg.M) ∧
    (∃ v, exec (.rdr 3) s = .next (s.answered false v) ∧ v.toNat = s.cfg.TW) ∧
    (∃ v, exec (.rdr 4) s = .next (s.answered false v) ∧ v.toNat = s.cfg.hob) ∧
    (∃ v, exec (.rdr 5) s = .next (s.answered false v) ∧ v.toNat = s.cfg.W) ∧
    (∃ v, exec (.rdr 6) s = .next (s.answered false v) ∧
      v.toNat = (if s.cfg.rangeCheck then 1 else 0) + (if s.cfg.overflow = .any then 2 else 0)) ∧
    (∃ v, exec (.rdr 7) s = .next (s.answered false v) ∧ v.toNat = s.fcmd.toNat) ∧
    exec (.rdr 8) s = .next (s.answered false s.fa) ∧
    exec (.rdr 9) s = .next (s.answered false s.fb) ∧
    exec (.rdr 10) s = .next (s.answered false s.fval) ∧
    (s.FaultRecordInv → s.phase ≠ .fault → ∀ sel : BitVec 6, 7 ≤ sel.toNat → sel.toNat ≤ 10 →
      exec (.rdr sel) s = .next (s.answered false 0))

/-- R23, R28, R116: the codes of PHASE and CAUSE, and the place of each in STATUS; the fields between and above read 0; right
after reset STATUS is 0. -/
def Obligations.StatusFields : Prop :=
  (Phase.empty.code = 0 ∧ Phase.done.code = 1 ∧ Phase.fault.code = 2) ∧
    (Cause.none.code = 0 ∧ Cause.range.code = 1 ∧ Cause.illegalCmd.code = 2 ∧ Cause.hobRange.code = 3 ∧
      Cause.notReady.code = 4 ∧ Cause.badIndex.code = 5) ∧
    (∀ (p : Phase) (c : Cause), p.code ≠ 3 ∧ c.code.toNat < 6) ∧
    (∀ s : State, ∃ v, exec (.rdr 0) s = .next (s.answered false v) ∧
      v.extractLsb' 0 2 = s.phase.code ∧ v.extractLsb' 2 2 = 0#2 ∧ v.extractLsb' 4 4 = s.cause.code ∧
      v.toNat < 2 ^ 8) ∧
    ∀ p : Params, exec (.rdr 0) (State.resetOf p) = .next ((State.resetOf p).answered false 0)

/-- R110: RDR's word and its reserved words; every legal RDR answers its register, in every phase, with rsp_err = 0, and
changes nothing but the port; a reserved sel is an illegal command; and the corner cases: FAULT_* out of FAULT, STATUS
right after reset, STATUS after an ILLEGAL_CMD fault, CFG_* over any step, and CFG_HOB of an 8×8 instance. What exec does
with a reserved sel, which no word decodes to, is the model's reading (log 20). -/
def Obligations.RdrBehaviour : Prop :=
  ∀ (s : State) (sel : BitVec 6),
    (encode (.rdr sel) = (0#6 ++ sel) ++ 5#4 ∧ encode (.rdr sel) &&& 0xFC0F = 0x0005 ∧
      ∀ w, rsvField w ≠ 0 → ∃ why, decode w = .illegal why) ∧
    (sel.toNat ≤ 10 → ∃ v, readRegister s sel = some v ∧ exec (.rdr sel) s = .next (s.answered false v)) ∧
    (11 ≤ sel.toNat → (∃ why, decode (encode (.rdr sel)) = .illegal why) ∧
      (s.phase ≠ .fault → exec (.rdr sel) s =
        .next (s.faulted .illegalCmd s.request.opa s.request.opb 0)) ∧
      (s.phase = .fault → exec (.rdr sel) s = .next (s.answered true 0))) ∧
    (s.FaultRecordInv → s.phase ≠ .fault → 7 ≤ sel.toNat → sel.toNat ≤ 10 →
      exec (.rdr sel) s = .next (s.answered false 0)) ∧
    exec (.rdr 0) (State.resetOf s.cfg) = .next ((State.resetOf s.cfg).answered false 0) ∧
    (s.phase = .fault → s.cause = .illegalCmd → exec (.rdr 0) s = .next (s.answered false 0x22)) ∧
    (∀ t, step s = .next t → 1 ≤ sel.toNat → sel.toNat ≤ 6 → readRegister t sel = readRegister s sel) ∧
    (s.cfg.N = 8 → s.cfg.M = 8 → exec (.rdr 4) s = .next (s.answered false 5))

/-! ### What commands change -/

/-- R36, R46: ILV, VAL, RDR and RDL, when they do not fault, change nothing but the response: no status, no fault register,
no cursor, no operand, and no byte, that is no element, of the LUT. -/
def Obligations.ReadsChangeNothing : Prop :=
  ∀ (s t : State) (i : Instr), i ≠ .gen → exec i s = .next t →
    (∃ v, t.port = .answering { err := false, data := v }) →
    t.cfg = s.cfg ∧ t.phase = s.phase ∧ t.cause = s.cause ∧ t.fcmd = s.fcmd ∧ t.fa = s.fa ∧ t.fb = s.fb ∧
      t.fval = s.fval ∧ t.fill = s.fill ∧ t.request = s.request ∧ t.turns = s.turns ∧ t.received = s.received ∧
      t.draws = s.draws ∧ ∀ k, Memory.read t.lut k = Memory.read s.lut k

/-- R119: every fault is fault entry and nothing else: the command word is recorded, the response is (1, 0), every other
piece of state stands, the LUT's storage too (log 9), but for the LUT elements of a faulting GEN, which hold no value
(R98). -/
def Obligations.FaultsArePrecise : Prop :=
  ∀ (s t : State) (i : Instr), s.cfg.legal = true → s.LutInv → s.phase ≠ .fault → exec i s = .next t →
    t.phase = .fault →
    ∃ c a b v, c ≠ .none ∧
      (i ≠ .gen → t = s.faulted c a b v) ∧
      (i = .gen → t = { s with lut := [], fill := none }.faulted .range a b v)

/-- R120: in FAULT a legal RDR is performed; every other command, illegal words among them, responds (1, 0) and changes
nothing else. -/
def Obligations.FaultPhaseRejects : Prop :=
  ∀ (s : State) (rest : List Turn), s.cfg.legal = true → s.phase = .fault → s.port = .accepted →
    s.turns = .perform :: rest →
    (∀ sel, decode s.request.cmd = .instr (.rdr sel) →
      ∃ v, readRegister s sel = some v ∧ step s = .next ({ s with turns := rest }.answered false v)) ∧
    ((∀ sel, decode s.request.cmd ≠ .instr (.rdr sel)) →
      step s = .next ({ s with turns := rest }.answered true 0))

/-- R121: the order of the checks on an accepted command. The first that applies decides: the FAULT phase (unless a legal
RDR), an illegal word, h ≥ W, NOT_READY, BAD_INDEX, RANGE at the first cell that does not fit. When none applies there is
no fault. `u` is the state with the turn taken off the schedule. -/
def Obligations.CheckPriority : Prop :=
  ∀ (s u : State) (rest : List Turn), s.cfg.legal = true → s.LutInv → s.port = .accepted →
    s.turns = .perform :: rest → u = { s with turns := rest } →
    ((s.phase = .fault ∧ ∀ sel, decode s.request.cmd ≠ .instr (.rdr sel)) → step s = .next (u.answered true 0)) ∧
    (∀ sel, decode s.request.cmd = .instr (.rdr sel) → ∃ v, step s = .next (u.answered false v)) ∧
    (s.phase ≠ .fault →
      (∀ why, decode s.request.cmd = .illegal why →
        step s = .next (u.faulted .illegalCmd s.request.opa s.request.opb 0)) ∧
      (∀ h, decode s.request.cmd = .instr (.ilv h) ∨ decode s.request.cmd = .instr (.val h) →
        (s.cfg.W ≤ h.toNat →
          step s = .next (u.faulted .hobRange s.request.opa s.request.opb (zext h.toNat))) ∧
        (h.toNat < s.cfg.W → ∃ v, step s = .next (u.answered false v))) ∧
      (decode s.request.cmd = .instr .rdl →
        (s.phase = .empty → step s = .next (u.faulted .notReady s.request.opa s.request.opb 0)) ∧
        (s.phase = .done → s.cfg.N ≤ s.request.opa.toNat ∨ s.cfg.M ≤ s.request.opb.toNat →
          step s = .next (u.faulted .badIndex s.request.opa s.request.opb 0)) ∧
        (s.phase = .done → s.request.opa.toNat < s.cfg.N → s.request.opb.toNat < s.cfg.M →
          ∃ v, step s = .next (u.answered false v))) ∧
      (decode s.request.cmd = .instr .gen →
        (s.phase = .empty → s.cfg.rangeCheck = true → ¬ allFit s.cfg →
          ∃ i j, i < s.cfg.N ∧ j < s.cfg.M ∧ 2 ^ s.cfg.TW ≤ (wideValue s.cfg i j).toNat ∧
            (∀ i' j', i' < s.cfg.N → j' < s.cfg.M → visitedBefore i' j' i j →
              (wideValue s.cfg i' j').toNat < 2 ^ s.cfg.TW) ∧
            step s = .next ({ u with lut := [], fill := none }.faulted .range (zext i) (zext j)
              (wideValue s.cfg i j))) ∧
        (s.phase = .done ∨ s.cfg.rangeCheck = false ∨ allFit s.cfg →
          ∃ t, step s = .next t ∧ t.phase = .done ∧ t.port = .answering { err := false, data := 0 })))

/-- R67, R68: the block answers every accepted word, and rsp_err is 1 exactly when it faulted or was rejected, with data 0;
GEN's answer is 0. -/
def Obligations.EveryCommandIsAnswered : Prop :=
  ∀ (s : State) (rest : List Turn), s.cfg.legal = true → s.LutInv → s.port = .accepted →
    s.turns = .perform :: rest →
    ∃ t r, step s = .next t ∧ t.port = .answering r ∧
      (r.err = true → r.data = 0 ∧ t.phase = .fault) ∧
      (r.err = false → (decode s.request.cmd = .instr .gen → r.data = 0) ∧
        (t.phase = .fault → ∃ sel, decode s.request.cmd = .instr (.rdr sel)))

/-! ### Whole-machine rules -/

/-- R24: PHASE changes only as its table says: reset to EMPTY; EMPTY to DONE only by a GEN; to FAULT only by a fault of the
accepted command, recorded with its cause; and FAULT is left by reset alone. An answer with rsp_err = 0 leaves PHASE as it
is, but for a GEN in EMPTY, which leaves DONE; an answer with rsp_err = 1 leaves FAULT. -/
def Obligations.PhaseTransitions : Prop :=
  ∀ s t : State, step s = .next t →
    (s.resetNext = true → t.phase = .empty) ∧
    (s.resetNext = false → t.phase ≠ s.phase →
      s.port = .accepted ∧
        ((s.phase = .empty ∧ t.phase = .done ∧ decode s.request.cmd = .instr .gen) ∨
          (s.phase ≠ .fault ∧ t.phase = .fault ∧ t.cause ≠ .none ∧
            t.port = .answering { err := true, data := 0 }))) ∧
    (s.port = .accepted → ∀ r, t.port = .answering r →
      (r.err = true → t.phase = .fault) ∧
      (r.err = false → t.phase =
        if s.phase = .empty ∧ decode s.request.cmd = .instr .gen then .done else s.phase))

/-- R25, R26, R120: CAUSE and the fault record are written only by fault entry, out of a phase other than FAULT, and by
reset. -/
def Obligations.FaultRecordWrittenByEntryOrReset : Prop :=
  ∀ s t : State, step s = .next t → s.resetNext = false →
    (t.cause ≠ s.cause ∨ t.fcmd ≠ s.fcmd ∨ t.fa ≠ s.fa ∨ t.fb ≠ s.fb ∨ t.fval ≠ s.fval) →
    s.phase ≠ .fault ∧ t.phase = .fault

/-- R115, R122: a fault is sticky: in FAULT every step that is not a reset leaves PHASE, CAUSE and the record as they are, and
a reset returns to EMPTY with the record clear. -/
def Obligations.OnlyResetLeavesFault : Prop :=
  ∀ s t : State, s.phase = .fault → step s = .next t →
    (s.resetNext = false → t.phase = .fault ∧ t.cause = s.cause ∧ t.fcmd = s.fcmd ∧ t.fa = s.fa ∧ t.fb = s.fb ∧
      t.fval = s.fval) ∧
    (s.resetNext = true → t.phase = .empty ∧ t.cause = .none ∧ t.fcmd = 0 ∧ t.fa = 0 ∧ t.fb = 0 ∧ t.fval = 0)

/-- R54: once PHASE = DONE, no step but a reset writes the LUT: every element reads as before. -/
def Obligations.LutImmutableInDone : Prop :=
  ∀ s t : State, s.phase = .done → step s = .next t → s.resetNext = false →
    ∀ k, Memory.read t.lut k = Memory.read s.lut k

/-- R20, R29, R30: no step changes the parameters of the instance, so CFG_* read the same constants at every time; with
parameters that fail the elaboration check there is no step (that the step is where the model refuses is log 13). -/
def Obligations.ParametersAreConstant : Prop :=
  (∀ s t : State, step s = .next t → t.cfg = s.cfg) ∧
    ∀ s : State, s.cfg.legal = false → step s = .refused .parametersIllegal

/-! ### The port and reset -/

/-- R56 items 1 and 2, R135, R139, R141: a command is accepted exactly at an edge with req_valid = 1, req_ready = 1 and
rst = 0, and then cmd, opa and opb are sampled (the operands as W-bit values), and nothing else of the block changes;
at every edge where req_ready = 0 and rst = 0 the values of req_valid, cmd, opa and opb have no effect, and where rst = 1
no input but rst has one and no command is accepted. Two points are the model's choice: the bus values are held as words
cut to W bits (log 2), and where rst = 1 rsp_ready has no effect either, so that a presented response is dropped whatever
rsp_ready is (log 21). -/
def Obligations.AcceptanceSamplesTheBuses : Prop :=
  ∀ (s : State) (i : PortInputs) (rest : List Turn), s.cfg.legal = true → s.turns = .edge i :: rest →
    i.rst = false →
    (s.outputs.reqReady = true → i.reqValid = true →
      step s = .next { s with
        turns := rest, port := .accepted,
        request := { cmd := i.cmd, opa := truncTo s.cfg.W i.opa, opb := truncTo s.cfg.W i.opb } }) ∧
    (s.outputs.reqReady = true → i.reqValid = false → step s = .next { s with turns := rest }) ∧
    (s.outputs.reqReady = false →
      (∀ t, step s = .next t → t.request = s.request ∧ (t.port = .accepted → s.port = .accepted)) ∧
      ∀ i' : PortInputs, i'.rst = false → i'.rspReady = i.rspReady →
        step { s with turns := .edge i' :: rest } = step s) ∧
    (∀ j j' : PortInputs, j.rst = true → j'.rst = true →
      step { s with turns := .edge j :: rest } = step { s with turns := .edge j' :: rest } ∧
        ∃ t, step { s with turns := .edge j :: rest } = .next t ∧ t.port = .closed)

/-- R56 items 3 and 4, R140: a response is held stable until an edge with rsp_ready = 1 takes it; the host then has it,
once, and req_ready is 1 again. That req_ready returns at that very edge is the model's choice (log 7). -/
def Obligations.ResponseHeldUntilTaken : Prop :=
  ∀ (s : State) (i : PortInputs) (rest : List Turn) (r : Response), s.cfg.legal = true →
    s.turns = .edge i :: rest → i.rst = false → s.port = .answering r →
    s.outputs.rspValid = true ∧ s.outputs.rsp = some r ∧ s.outputs.reqReady = false ∧
      (i.rspReady = false → step s = .next { s with turns := rest }) ∧
      (i.rspReady = true → ∃ t, step s = .next t ∧
        t = { s with turns := rest, port := .ready, received := s.received ++ [r] } ∧ t.outputs.reqReady = true)

/-- R56, R140: at most one command is outstanding and each accepted command gets exactly one response: whatever the step,
the port moves only along ready, accepted, answering, ready (closed after a reset), and what the host has received
grows by the pending response when, and only when, it is taken. Three points are the model's choice: that the port is
ready again at the very edge that takes a response (log 7), that received survives a reset (log 18), and that a
response presented at a reset edge is dropped (log 21). -/
def Obligations.OneResponsePerCommand : Prop :=
  ∀ s t : State, step s = .next t →
    (s.resetNext = true → t.port = .closed ∧ t.received = s.received) ∧
    (s.resetNext = false →
      (s.port = .closed → (t.port = .closed ∨ t.port = .ready) ∧ t.received = s.received) ∧
      (s.port = .ready → (t.port = .ready ∨ t.port = .accepted) ∧ t.received = s.received) ∧
      (s.port = .accepted → (t.port = .accepted ∨ ∃ r, t.port = .answering r) ∧ t.received = s.received) ∧
      (∀ r, s.port = .answering r →
        (t.port = .answering r ∧ t.received = s.received) ∨
          (t.port = .ready ∧ t.received = s.received ++ [r])))

/-- R55, R123: done and fault are levels that follow PHASE, busy is high only while an accepted GEN in EMPTY is unanswered, and
then req_ready = 0 and rsp_valid = 0; req_ready and rsp_valid are never both 1. -/
def Obligations.OutputsFollowTheState : Prop :=
  ∀ s : State,
    (s.outputs.done = true ↔ s.phase = .done) ∧ (s.outputs.fault = true ↔ s.phase = .fault) ∧
      (s.outputs.busy = true ↔ s.port = .accepted ∧ s.phase = .empty ∧ decode s.request.cmd = .instr .gen) ∧
      (s.outputs.busy = true → s.outputs.reqReady = false ∧ s.outputs.rspValid = false) ∧
      ¬ (s.outputs.reqReady = true ∧ s.outputs.rspValid = true)

/-- R35, R135, R136: a rising edge with rst = 1, in whatever state, a GEN in progress among them, leaves every state element
at its reset value, abandons any command with no response, and accepts none; the parameters stay. At the first edge
with rst = 0 after it, req_ready becomes 1 and no command is accepted yet. That what the host has received stays is the
model's choice: a reset keeps it (log 18), and a response presented at the reset edge is not taken (log 21). -/
def Obligations.ResetRestoresTheResetState : Prop :=
  ∀ (s : State) (i : PortInputs) (rest : List Turn), s.cfg.legal = true → s.turns = .edge i :: rest →
    i.rst = true →
    ∃ t, step s = .next t ∧
      t.phase = .empty ∧ t.cause = .none ∧ t.fcmd = 0 ∧ t.fa = 0 ∧ t.fb = 0 ∧ t.fval = 0 ∧
      (∀ k, Memory.read t.lut k = none) ∧ t.fill = none ∧ t.cfg = s.cfg ∧ t.received = s.received ∧
      t.port = .closed ∧
      t.outputs = { reqReady := false, rspValid := false, rsp := none, busy := false, done := false, fault := false } ∧
      ∀ (i' : PortInputs) (rest' : List Turn), rest = .edge i' :: rest' → i'.rst = false →
        ∃ u, step t = .next u ∧ u.outputs.reqReady = true ∧ u.outputs.rspValid = false ∧ u.phase = .empty

/-- R136: a reset edge after any number of cell turns of an accepted GEN, which cuts it short or finds it answered already,
leaves EMPTY, no element with a value and no response; an RDL performed before another GEN then raises NOT_READY. Three
points are the model's choice: the cell turns (log 5), that received survives the reset (log 18), and, where the GEN has
answered, that its response is dropped even with rsp_ready = 1 (log 21). -/
def Obligations.ResetDuringGen : Prop :=
  ∀ (s : State) (n : Nat) (i : PortInputs), s.cfg.legal = true → generating s = true → i.rst = true →
    s.turns = List.replicate n .cell ++ [.edge i] →
    ∃ t, core.run (n + 1) s = .next t ∧ t.phase = .empty ∧ (∀ k, Memory.read t.lut k = none) ∧ t.fill = none ∧
      t.received = s.received ∧ t.response = none ∧
      exec .rdl t = .next (t.faulted .notReady t.request.opa t.request.opb 0)

/-- R35: the machine just reset: PHASE, CAUSE and the record at the values of the table, no LUT element with a value, no
request accepted and no response pending; so STATUS and the four fault registers read 0. -/
def Obligations.ResetValues : Prop :=
  ∀ p : Params,
    (State.resetOf p).phase = .empty ∧ (State.resetOf p).cause = .none ∧ (State.resetOf p).fcmd = 0 ∧
      (State.resetOf p).fa = 0 ∧ (State.resetOf p).fb = 0 ∧ (State.resetOf p).fval = 0 ∧
      (∀ k, Memory.read (State.resetOf p).lut k = none) ∧ (State.resetOf p).fill = none ∧
      (State.resetOf p).cfg = p ∧ (State.resetOf p).response = none ∧ (State.resetOf p).port ≠ .accepted ∧
      (State.resetOf p).outputs.busy = false ∧
      exec (.rdr 0) (State.resetOf p) = .next ((State.resetOf p).answered false 0) ∧
      exec (.rdr 7) (State.resetOf p) = .next ((State.resetOf p).answered false 0) ∧
      exec (.rdr 8) (State.resetOf p) = .next ((State.resetOf p).answered false 0) ∧
      exec (.rdr 9) (State.resetOf p) = .next ((State.resetOf p).answered false 0) ∧
      exec (.rdr 10) (State.resetOf p) = .next ((State.resetOf p).answered false 0)

/-! ### Invariants of every step -/

/-- Every instance just reset meets all the invariants, whatever is scheduled; State.reset does. -/
def Obligations.ResetMeetsInvariants : Prop :=
  (∀ (p : Params) (turns : List Turn), p.legal = true → (runFrom p turns).Inv) ∧ State.reset.Inv

/-- R25, R26, R31: every step keeps the fault record clear out of FAULT and the cause recorded in FAULT. -/
def Obligations.StepKeepsFaultRecord : Prop :=
  ∀ s t : State, s.FaultRecordInv → step s = .next t → t.FaultRecordInv

/-- R32, R33, R41, R95: every step keeps the LUT's invariant: canonical, each element the one R95 gives, complete in DONE, and
during a fill exactly the cells before the cursor. -/
def Obligations.StepKeepsLut : Prop :=
  ∀ s t : State, s.LutInv → step s = .next t → t.LutInv

/-- R9, R27, R55: every step keeps recorded and answered values W bits wide and elements TW bits wide. -/
def Obligations.StepKeepsWidths : Prop :=
  ∀ s t : State, s.WidthInv → s.LutInv → step s = .next t → t.WidthInv

/-- R68: every step keeps responses with rsp_err = 1 at data 0. -/
def Obligations.StepKeepsErrorResponsesZero : Prop :=
  ∀ s t : State, s.ResponseInv → step s = .next t → t.ResponseInv

/-- R48, R143, R145: from reset, whatever the host does and whenever the block moves, no run of a legal instance stops: after
any number of steps there is a state, and it meets every invariant. -/
def Obligations.RunsNeverStop : Prop :=
  ∀ (p : Params) (turns : List Turn) (n : Nat), p.legal = true →
    ∃ t, core.run n (runFrom p turns) = .next t ∧ t.Inv ∧ t.cfg = p

/-- Every state that meets the invariants has a next state, and that state meets them: no step from it faults or is refused,
whatever is scheduled. The invariants rule out states no run reaches, and every instance just reset meets them
(ResetMeetsInvariants). -/
def Obligations.InvariantStateStepsOn : Prop :=
  ∀ s : State, s.Inv → ∃ t, step s = .next t ∧ t.Inv
end

