-- ==== Sys2Proof/Laws/Decode.lean ====
section
/-! SUPPORT. The laws of the command word: its fields, and the word from its fields. -/

namespace Sys2Proof

theorem getLsbD_commandWord (a b : BitVec 6) (c : BitVec 4) (i : Nat) (hi : i < 16) :
    (commandWord a b c).getLsbD i =
      if i < 4 then c.getLsbD i else if i < 10 then b.getLsbD (i - 4) else a.getLsbD (i - 10) := by
  unfold commandWord
  rw [BitVec.getLsbD_setWidth, BitVec.getLsbD_append, BitVec.getLsbD_append]
  simp only [hi, decide_true, Bool.true_and, Nat.sub_sub]
  by_cases h1 : i < 4 <;> by_cases h2 : i < 10 <;> simp [h1, h2] <;> omega

@[simp] theorem opField_commandWord (rsv hs : BitVec 6) (op : BitVec 4) : opField (commandWord rsv hs op) = op := by
  apply BitVec.eq_of_getLsbD_eq
  intro i hi
  rw [opField, BitVec.getLsbD_extractLsb', getLsbD_commandWord _ _ _ _ (by omega)]
  simp [hi]

@[simp] theorem hsField_commandWord (rsv hs : BitVec 6) (op : BitVec 4) : hsField (commandWord rsv hs op) = hs := by
  apply BitVec.eq_of_getLsbD_eq
  intro i hi
  rw [hsField, BitVec.getLsbD_extractLsb', getLsbD_commandWord _ _ _ _ (by omega)]
  simp [hi, show 4 + i < 10 by omega]

@[simp] theorem rsvField_commandWord (rsv hs : BitVec 6) (op : BitVec 4) :
    rsvField (commandWord rsv hs op) = rsv := by
  apply BitVec.eq_of_getLsbD_eq
  intro i hi
  rw [rsvField, BitVec.getLsbD_extractLsb', getLsbD_commandWord _ _ _ _ (by omega)]
  simp [hi, show ¬ 10 + i < 4 by omega]

/-- A word is its three fields: no bit lies outside them (R57). -/
theorem commandWord_of_fields (w : BitVec 16) : commandWord (rsvField w) (hsField w) (opField w) = w := by
  apply BitVec.eq_of_getLsbD_eq
  intro i hi
  rw [getLsbD_commandWord _ _ _ _ hi, rsvField, hsField, opField]
  simp only [BitVec.getLsbD_extractLsb']
  split_ifs with h1 h2
  · simp [h1]
  · simp [show i - 4 < 6 by omega, show 4 + (i - 4) = i by omega]
  · simp [show i - 10 < 6 by omega, show 10 + (i - 10) = i by omega]

/-- Two words with the same fields are the same word. -/
theorem word_ext {w w' : BitVec 16} (hr : rsvField w = rsvField w') (hh : hsField w = hsField w')
    (ho : opField w = opField w') : w = w' := by
  rw [← commandWord_of_fields w, ← commandWord_of_fields w', hr, hh, ho]

/-- What decode answers, in terms of the word's fields (R63). -/
theorem decode_eq_instr_iff (w : BitVec 16) (i : Instr) :
    decode w = .instr i ↔
      rsvField w = 0 ∧ opField w = opcode i ∧ hsField w = hsOf i ∧ i.wellFormed = true := by
  unfold decode
  constructor
  · intro h
    split_ifs at h with h0 h1 h2 h3 h3' h4 h4' h5 h5' <;> simp only [Decoded.instr.injEq] at h <;>
      subst h <;> simp_all [opcode, hsOf, Instr.wellFormed]
  · rintro ⟨hr, ho, hh, hw⟩
    cases i <;> simp_all [opcode, hsOf, Instr.wellFormed]

/-- A row of the match and mask table fits a word when the masked bits match and HS is within the row's bound (R62). -/
theorem OpcodeRow.fits_iff (r : OpcodeRow) (cmd : BitVec 16) :
    r.fits cmd = true ↔ cmd &&& r.mask = r.pattern ∧ (hsField cmd).toNat ≤ r.hsMax := by
  simp [OpcodeRow.fits]

end Sys2Proof
end

