-- ==== Sys2Proof/Laws/State.lean ====
section
/-! SUPPORT. One lemma per field per update of the state, so that no later proof unfolds a record update. -/

namespace Sys2Proof.Machine

/-! ### respond (R67) -/

@[simp] theorem respond_cfg (s : State) (err : Bool) (data : Word) : (respond err data s).cfg = s.cfg := rfl
@[simp] theorem respond_phase (s : State) (err : Bool) (data : Word) : (respond err data s).phase = s.phase := rfl
@[simp] theorem respond_cause (s : State) (err : Bool) (data : Word) : (respond err data s).cause = s.cause := rfl
@[simp] theorem respond_fcmd (s : State) (err : Bool) (data : Word) : (respond err data s).fcmd = s.fcmd := rfl
@[simp] theorem respond_fa (s : State) (err : Bool) (data : Word) : (respond err data s).fa = s.fa := rfl
@[simp] theorem respond_fb (s : State) (err : Bool) (data : Word) : (respond err data s).fb = s.fb := rfl
@[simp] theorem respond_fval (s : State) (err : Bool) (data : Word) : (respond err data s).fval = s.fval := rfl
@[simp] theorem respond_lut (s : State) (err : Bool) (data : Word) : (respond err data s).lut = s.lut := rfl
@[simp] theorem respond_fill (s : State) (err : Bool) (data : Word) : (respond err data s).fill = s.fill := rfl
@[simp] theorem respond_port (s : State) (err : Bool) (data : Word) : (respond err data s).port = .answering { err := err, data := data } := rfl
@[simp] theorem respond_request (s : State) (err : Bool) (data : Word) : (respond err data s).request = s.request := rfl
@[simp] theorem respond_turns (s : State) (err : Bool) (data : Word) : (respond err data s).turns = s.turns := rfl
@[simp] theorem respond_received (s : State) (err : Bool) (data : Word) : (respond err data s).received = s.received := rfl
@[simp] theorem respond_draws (s : State) (err : Bool) (data : Word) : (respond err data s).draws = s.draws := rfl

/-! ### raiseFault (R119) -/

@[simp] theorem raiseFault_cfg (s : State) (c : Cause) (a b v : Word) : (raiseFault c a b v s).cfg = s.cfg := rfl
@[simp] theorem raiseFault_phase (s : State) (c : Cause) (a b v : Word) : (raiseFault c a b v s).phase = .fault := rfl
@[simp] theorem raiseFault_cause (s : State) (c : Cause) (a b v : Word) : (raiseFault c a b v s).cause = c := rfl
@[simp] theorem raiseFault_fcmd (s : State) (c : Cause) (a b v : Word) : (raiseFault c a b v s).fcmd = s.request.cmd := rfl
@[simp] theorem raiseFault_fa (s : State) (c : Cause) (a b v : Word) : (raiseFault c a b v s).fa = a := rfl
@[simp] theorem raiseFault_fb (s : State) (c : Cause) (a b v : Word) : (raiseFault c a b v s).fb = b := rfl
@[simp] theorem raiseFault_fval (s : State) (c : Cause) (a b v : Word) : (raiseFault c a b v s).fval = v := rfl
@[simp] theorem raiseFault_lut (s : State) (c : Cause) (a b v : Word) : (raiseFault c a b v s).lut = s.lut := rfl
@[simp] theorem raiseFault_fill (s : State) (c : Cause) (a b v : Word) : (raiseFault c a b v s).fill = s.fill := rfl
@[simp] theorem raiseFault_port (s : State) (c : Cause) (a b v : Word) : (raiseFault c a b v s).port = .answering { err := true, data := 0 } := rfl
@[simp] theorem raiseFault_request (s : State) (c : Cause) (a b v : Word) : (raiseFault c a b v s).request = s.request := rfl
@[simp] theorem raiseFault_turns (s : State) (c : Cause) (a b v : Word) : (raiseFault c a b v s).turns = s.turns := rfl
@[simp] theorem raiseFault_received (s : State) (c : Cause) (a b v : Word) : (raiseFault c a b v s).received = s.received := rfl
@[simp] theorem raiseFault_draws (s : State) (c : Cause) (a b v : Word) : (raiseFault c a b v s).draws = s.draws := rfl

/-! ### lutWrite (R14) -/

@[simp] theorem lutWrite_cfg (s : State) (r c : Nat) (v : Word) : (lutWrite r c v s).cfg = s.cfg := rfl
@[simp] theorem lutWrite_phase (s : State) (r c : Nat) (v : Word) : (lutWrite r c v s).phase = s.phase := rfl
@[simp] theorem lutWrite_cause (s : State) (r c : Nat) (v : Word) : (lutWrite r c v s).cause = s.cause := rfl
@[simp] theorem lutWrite_fcmd (s : State) (r c : Nat) (v : Word) : (lutWrite r c v s).fcmd = s.fcmd := rfl
@[simp] theorem lutWrite_fa (s : State) (r c : Nat) (v : Word) : (lutWrite r c v s).fa = s.fa := rfl
@[simp] theorem lutWrite_fb (s : State) (r c : Nat) (v : Word) : (lutWrite r c v s).fb = s.fb := rfl
@[simp] theorem lutWrite_fval (s : State) (r c : Nat) (v : Word) : (lutWrite r c v s).fval = s.fval := rfl
@[simp] theorem lutWrite_lut (s : State) (r c : Nat) (v : Word) : (lutWrite r c v s).lut = Memory.write s.lut (s.cfg.flat r c) v := rfl
@[simp] theorem lutWrite_fill (s : State) (r c : Nat) (v : Word) : (lutWrite r c v s).fill = s.fill := rfl
@[simp] theorem lutWrite_port (s : State) (r c : Nat) (v : Word) : (lutWrite r c v s).port = s.port := rfl
@[simp] theorem lutWrite_request (s : State) (r c : Nat) (v : Word) : (lutWrite r c v s).request = s.request := rfl
@[simp] theorem lutWrite_turns (s : State) (r c : Nat) (v : Word) : (lutWrite r c v s).turns = s.turns := rfl
@[simp] theorem lutWrite_received (s : State) (r c : Nat) (v : Word) : (lutWrite r c v s).received = s.received := rfl
@[simp] theorem lutWrite_draws (s : State) (r c : Nat) (v : Word) : (lutWrite r c v s).draws = s.draws := rfl

/-! ### genFinish (R96) -/

@[simp] theorem genFinish_cfg (s : State) : (genFinish s).cfg = s.cfg := rfl
@[simp] theorem genFinish_phase (s : State) : (genFinish s).phase = .done := rfl
@[simp] theorem genFinish_cause (s : State) : (genFinish s).cause = s.cause := rfl
@[simp] theorem genFinish_fcmd (s : State) : (genFinish s).fcmd = s.fcmd := rfl
@[simp] theorem genFinish_fa (s : State) : (genFinish s).fa = s.fa := rfl
@[simp] theorem genFinish_fb (s : State) : (genFinish s).fb = s.fb := rfl
@[simp] theorem genFinish_fval (s : State) : (genFinish s).fval = s.fval := rfl
@[simp] theorem genFinish_lut (s : State) : (genFinish s).lut = s.lut := rfl
@[simp] theorem genFinish_fill (s : State) : (genFinish s).fill = none := rfl
@[simp] theorem genFinish_port (s : State) : (genFinish s).port = .answering { err := false, data := 0 } := rfl
@[simp] theorem genFinish_request (s : State) : (genFinish s).request = s.request := rfl
@[simp] theorem genFinish_turns (s : State) : (genFinish s).turns = s.turns := rfl
@[simp] theorem genFinish_received (s : State) : (genFinish s).received = s.received := rfl
@[simp] theorem genFinish_draws (s : State) : (genFinish s).draws = s.draws := rfl

/-! ### genFault (R94, R98) -/

@[simp] theorem genFault_cfg (s : State) (c : Cursor) (v : Word) : (genFault c v s).cfg = s.cfg := rfl
@[simp] theorem genFault_phase (s : State) (c : Cursor) (v : Word) : (genFault c v s).phase = .fault := rfl
@[simp] theorem genFault_cause (s : State) (c : Cursor) (v : Word) : (genFault c v s).cause = .range := rfl
@[simp] theorem genFault_fcmd (s : State) (c : Cursor) (v : Word) : (genFault c v s).fcmd = s.request.cmd := rfl
@[simp] theorem genFault_fa (s : State) (c : Cursor) (v : Word) : (genFault c v s).fa = zext c.row := rfl
@[simp] theorem genFault_fb (s : State) (c : Cursor) (v : Word) : (genFault c v s).fb = zext c.col := rfl
@[simp] theorem genFault_fval (s : State) (c : Cursor) (v : Word) : (genFault c v s).fval = v := rfl
@[simp] theorem genFault_lut (s : State) (c : Cursor) (v : Word) : (genFault c v s).lut = [] := rfl
@[simp] theorem genFault_fill (s : State) (c : Cursor) (v : Word) : (genFault c v s).fill = none := rfl
@[simp] theorem genFault_port (s : State) (c : Cursor) (v : Word) : (genFault c v s).port = .answering { err := true, data := 0 } := rfl
@[simp] theorem genFault_request (s : State) (c : Cursor) (v : Word) : (genFault c v s).request = s.request := rfl
@[simp] theorem genFault_turns (s : State) (c : Cursor) (v : Word) : (genFault c v s).turns = s.turns := rfl
@[simp] theorem genFault_received (s : State) (c : Cursor) (v : Word) : (genFault c v s).received = s.received := rfl
@[simp] theorem genFault_draws (s : State) (c : Cursor) (v : Word) : (genFault c v s).draws = s.draws := rfl

/-! ### resetEdge (R135) -/

@[simp] theorem resetEdge_cfg (s : State) : (resetEdge s).cfg = s.cfg := rfl
@[simp] theorem resetEdge_phase (s : State) : (resetEdge s).phase = .empty := rfl
@[simp] theorem resetEdge_cause (s : State) : (resetEdge s).cause = .none := rfl
@[simp] theorem resetEdge_fcmd (s : State) : (resetEdge s).fcmd = 0 := rfl
@[simp] theorem resetEdge_fa (s : State) : (resetEdge s).fa = 0 := rfl
@[simp] theorem resetEdge_fb (s : State) : (resetEdge s).fb = 0 := rfl
@[simp] theorem resetEdge_fval (s : State) : (resetEdge s).fval = 0 := rfl
@[simp] theorem resetEdge_lut (s : State) : (resetEdge s).lut = [] := rfl
@[simp] theorem resetEdge_fill (s : State) : (resetEdge s).fill = none := rfl
@[simp] theorem resetEdge_port (s : State) : (resetEdge s).port = .closed := rfl
@[simp] theorem resetEdge_request (s : State) : (resetEdge s).request = { cmd := 0, opa := 0, opb := 0 } := rfl
@[simp] theorem resetEdge_turns (s : State) : (resetEdge s).turns = s.turns := rfl
@[simp] theorem resetEdge_received (s : State) : (resetEdge s).received = s.received := rfl
@[simp] theorem resetEdge_draws (s : State) : (resetEdge s).draws = s.draws := rfl

/-! ### popTurn (log 4) -/

@[simp] theorem popTurn_cfg (s : State) : (popTurn s).cfg = s.cfg := rfl
@[simp] theorem popTurn_phase (s : State) : (popTurn s).phase = s.phase := rfl
@[simp] theorem popTurn_cause (s : State) : (popTurn s).cause = s.cause := rfl
@[simp] theorem popTurn_fcmd (s : State) : (popTurn s).fcmd = s.fcmd := rfl
@[simp] theorem popTurn_fa (s : State) : (popTurn s).fa = s.fa := rfl
@[simp] theorem popTurn_fb (s : State) : (popTurn s).fb = s.fb := rfl
@[simp] theorem popTurn_fval (s : State) : (popTurn s).fval = s.fval := rfl
@[simp] theorem popTurn_lut (s : State) : (popTurn s).lut = s.lut := rfl
@[simp] theorem popTurn_fill (s : State) : (popTurn s).fill = s.fill := rfl
@[simp] theorem popTurn_port (s : State) : (popTurn s).port = s.port := rfl
@[simp] theorem popTurn_request (s : State) : (popTurn s).request = s.request := rfl
@[simp] theorem popTurn_turns (s : State) : (popTurn s).turns = s.turns.tail := rfl
@[simp] theorem popTurn_received (s : State) : (popTurn s).received = s.received := rfl
@[simp] theorem popTurn_draws (s : State) : (popTurn s).draws = s.draws := rfl

/-! ### answered (R67) -/

@[simp] theorem answered_cfg (s : State) (err : Bool) (data : Word) : (s.answered err data).cfg = s.cfg := rfl
@[simp] theorem answered_phase (s : State) (err : Bool) (data : Word) : (s.answered err data).phase = s.phase := rfl
@[simp] theorem answered_cause (s : State) (err : Bool) (data : Word) : (s.answered err data).cause = s.cause := rfl
@[simp] theorem answered_fcmd (s : State) (err : Bool) (data : Word) : (s.answered err data).fcmd = s.fcmd := rfl
@[simp] theorem answered_fa (s : State) (err : Bool) (data : Word) : (s.answered err data).fa = s.fa := rfl
@[simp] theorem answered_fb (s : State) (err : Bool) (data : Word) : (s.answered err data).fb = s.fb := rfl
@[simp] theorem answered_fval (s : State) (err : Bool) (data : Word) : (s.answered err data).fval = s.fval := rfl
@[simp] theorem answered_lut (s : State) (err : Bool) (data : Word) : (s.answered err data).lut = s.lut := rfl
@[simp] theorem answered_fill (s : State) (err : Bool) (data : Word) : (s.answered err data).fill = s.fill := rfl
@[simp] theorem answered_port (s : State) (err : Bool) (data : Word) : (s.answered err data).port = .answering { err := err, data := data } := rfl
@[simp] theorem answered_request (s : State) (err : Bool) (data : Word) : (s.answered err data).request = s.request := rfl
@[simp] theorem answered_turns (s : State) (err : Bool) (data : Word) : (s.answered err data).turns = s.turns := rfl
@[simp] theorem answered_received (s : State) (err : Bool) (data : Word) : (s.answered err data).received = s.received := rfl
@[simp] theorem answered_draws (s : State) (err : Bool) (data : Word) : (s.answered err data).draws = s.draws := rfl

/-! ### faulted (R119) -/

@[simp] theorem faulted_cfg (s : State) (c : Cause) (a b v : Word) : (s.faulted c a b v).cfg = s.cfg := rfl
@[simp] theorem faulted_phase (s : State) (c : Cause) (a b v : Word) : (s.faulted c a b v).phase = .fault := rfl
@[simp] theorem faulted_cause (s : State) (c : Cause) (a b v : Word) : (s.faulted c a b v).cause = c := rfl
@[simp] theorem faulted_fcmd (s : State) (c : Cause) (a b v : Word) : (s.faulted c a b v).fcmd = s.request.cmd := rfl
@[simp] theorem faulted_fa (s : State) (c : Cause) (a b v : Word) : (s.faulted c a b v).fa = a := rfl
@[simp] theorem faulted_fb (s : State) (c : Cause) (a b v : Word) : (s.faulted c a b v).fb = b := rfl
@[simp] theorem faulted_fval (s : State) (c : Cause) (a b v : Word) : (s.faulted c a b v).fval = v := rfl
@[simp] theorem faulted_lut (s : State) (c : Cause) (a b v : Word) : (s.faulted c a b v).lut = s.lut := rfl
@[simp] theorem faulted_fill (s : State) (c : Cause) (a b v : Word) : (s.faulted c a b v).fill = s.fill := rfl
@[simp] theorem faulted_port (s : State) (c : Cause) (a b v : Word) : (s.faulted c a b v).port = .answering { err := true, data := 0 } := rfl
@[simp] theorem faulted_request (s : State) (c : Cause) (a b v : Word) : (s.faulted c a b v).request = s.request := rfl
@[simp] theorem faulted_turns (s : State) (c : Cause) (a b v : Word) : (s.faulted c a b v).turns = s.turns := rfl
@[simp] theorem faulted_received (s : State) (c : Cause) (a b v : Word) : (s.faulted c a b v).received = s.received := rfl
@[simp] theorem faulted_draws (s : State) (c : Cause) (a b v : Word) : (s.faulted c a b v).draws = s.draws := rfl

/-! ### The operations and the terms of claims -/

theorem respond_eq_answered (s : State) (err : Bool) (data : Word) : respond err data s = s.answered err data := rfl

theorem reject_eq_answered (s : State) : reject s = s.answered true 0 := rfl

theorem raiseFault_eq_faulted (s : State) (c : Cause) (a b v : Word) :
    raiseFault c a b v s = s.faulted c a b v := rfl

end Sys2Proof.Machine
end

