-- ==== Sys2Proof/Laws/Memory.lean ====
section
/-! SUPPORT. The laws of the LUT's storage: read after write, the canonical form, and that equal reads make equal lists. -/

namespace Sys2Proof.Machine

@[simp] theorem Memory.read_nil (k : Nat) : Memory.read [] k = none := rfl

@[simp] theorem Memory.wf_nil : Memory.wf [] = true := rfl

/-- A read after a write gives the value written at its position, and what was there before elsewhere. -/
theorem Memory.read_write (m : Memory) (k k' : Nat) (v : Word) :
    Memory.read (Memory.write m k v) k' = if k = k' then some v else Memory.read m k' := by
  induction m with
  | nil => simp [Memory.write, Memory.read]
  | cons e rest ih =>
    obtain ⟨j, x⟩ := e
    unfold Memory.write
    split
    · simp [Memory.read]
    · split
      · next h => subst h; simp [Memory.read]; split <;> simp_all
      · next h1 h2 =>
        simp only [Memory.read, ih]
        split <;> split <;> simp_all

theorem Memory.read_write_same (m : Memory) (k : Nat) (v : Word) :
    Memory.read (Memory.write m k v) k = some v := by simp [Memory.read_write]

theorem Memory.read_write_other (m : Memory) {k k' : Nat} (v : Word) (h : k ≠ k') :
    Memory.read (Memory.write m k v) k' = Memory.read m k' := by simp [Memory.read_write, h]

/-- A list is canonical exactly when its tail is and its first position is below every other. -/
theorem Memory.wf_cons (j : Nat) (x : Word) (rest : Memory) :
    Memory.wf ((j, x) :: rest) = true ↔ (∀ e ∈ rest, j < e.1) ∧ Memory.wf rest = true := by
  induction rest generalizing j x with
  | nil => simp [Memory.wf]
  | cons e rest ih =>
    obtain ⟨k, y⟩ := e
    simp only [Memory.wf, Bool.and_eq_true, decide_eq_true_eq, List.mem_cons, forall_eq_or_imp]
    constructor
    · rintro ⟨hjk, hw⟩
      exact ⟨⟨hjk, fun e he => lt_trans hjk (((ih k y).1 hw).1 e he)⟩, hw⟩
    · rintro ⟨⟨hjk, -⟩, hw⟩
      exact ⟨hjk, hw⟩

/-- The positions after a write are those before it and the one written. -/
theorem Memory.mem_write {m : Memory} {k : Nat} {v : Word} {e : Nat × Word} (h : e ∈ Memory.write m k v) :
    e.1 = k ∨ e ∈ m := by
  induction m with
  | nil => simp_all [Memory.write]
  | cons e' rest ih =>
    obtain ⟨j, x⟩ := e'
    unfold Memory.write at h
    split at h
    · simp only [List.mem_cons] at h ⊢; rcases h with rfl | h | h <;> simp_all
    · split at h
      · simp only [List.mem_cons] at h ⊢; rcases h with rfl | h <;> simp_all
      · simp only [List.mem_cons] at h ⊢
        rcases h with rfl | h
        · simp
        · rcases ih h with h | h <;> simp [h]

/-- A write keeps the canonical form. -/
theorem Memory.wf_write {m : Memory} (h : Memory.wf m = true) (k : Nat) (v : Word) :
    Memory.wf (Memory.write m k v) = true := by
  induction m with
  | nil => rfl
  | cons e rest ih =>
    obtain ⟨j, x⟩ := e
    have hc := (Memory.wf_cons j x rest).1 h
    unfold Memory.write
    split
    · next hk =>
      refine (Memory.wf_cons k v _).2 ⟨fun e he => ?_, h⟩
      rcases List.mem_cons.1 he with rfl | he
      · exact hk
      · exact lt_trans hk (hc.1 e he)
    · split
      · next hk => subst hk; exact (Memory.wf_cons k v rest).2 hc
      · next h1 h2 =>
        refine (Memory.wf_cons j x _).2 ⟨fun e he => ?_, ih hc.2⟩
        rcases Memory.mem_write he with he | he
        · omega
        · exact hc.1 e he

/-- The reset machine's LUT is canonical. -/
theorem resetOf_lut_wf (p : Params) : Memory.wf (State.resetOf p).lut = true := rfl

theorem Memory.read_eq_none_of_below {m : Memory} {k : Nat} (h : ∀ e ∈ m, k < e.1) : Memory.read m k = none := by
  induction m with
  | nil => rfl
  | cons e rest ih =>
    obtain ⟨j, x⟩ := e
    have hj : k < j := h (j, x) (by simp)
    simp only [Memory.read]
    rw [if_neg (by omega), ih fun e he => h e (by simp [he])]

theorem Memory.isSome_read_of_mem {m : Memory} {e : Nat × Word} (h : e ∈ m) : ∃ x, Memory.read m e.1 = some x := by
  induction m with
  | nil => simp at h
  | cons e' rest ih =>
    obtain ⟨j, x⟩ := e'
    simp only [Memory.read]
    split
    · exact ⟨x, rfl⟩
    · next hj =>
      rcases List.mem_cons.1 h with rfl | h
      · exact absurd rfl hj
      · exact ih h

/-- Equal memories are equal data: two canonical lists that read alike are the same list. -/
theorem Memory.ext_of_wf {m m' : Memory} (hm : Memory.wf m = true) (hm' : Memory.wf m' = true)
    (h : ∀ k, Memory.read m k = Memory.read m' k) : m = m' := by
  induction m generalizing m' with
  | nil =>
    cases m' with
    | nil => rfl
    | cons e rest => have := h e.1; simp [Memory.read] at this
  | cons e rest ih =>
    obtain ⟨j, x⟩ := e
    cases m' with
    | nil => have := h j; simp [Memory.read] at this
    | cons e' rest' =>
      obtain ⟨j', x'⟩ := e'
      have hc := (Memory.wf_cons j x rest).1 hm
      have hc' := (Memory.wf_cons j' x' rest').1 hm'
      have hjj : j = j' := by
        rcases lt_trichotomy j j' with hlt | heq | hgt
        · have hn : Memory.read ((j', x') :: rest') j = none :=
            Memory.read_eq_none_of_below fun e he => by
              rcases List.mem_cons.1 he with rfl | he
              · exact hlt
              · exact lt_trans hlt (hc'.1 e he)
          have := h j; rw [hn] at this; simp [Memory.read] at this
        · exact heq
        · have hn : Memory.read ((j, x) :: rest) j' = none :=
            Memory.read_eq_none_of_below fun e he => by
              rcases List.mem_cons.1 he with rfl | he
              · exact hgt
              · exact lt_trans hgt (hc.1 e he)
          have := h j'; rw [hn] at this; simp [Memory.read] at this
      subst hjj
      have hx : x = x' := by have := h j; simpa [Memory.read] using this
      subst hx
      rw [ih hc.2 hc'.2 fun k => ?_]
      by_cases hk : j = k
      · subst hk
        rw [Memory.read_eq_none_of_below hc.1, Memory.read_eq_none_of_below hc'.1]
      · simpa [Memory.read, hk] using h k

end Sys2Proof.Machine
end

