-- ==== Sys2Proof/Laws/Params.lean ====
section
/-! SUPPORT. The laws of the derived constants: the search behind clog2, what legality gives, and narrowing. -/

namespace Sys2Proof

/-- The search for the exponent: with enough fuel it finds one that is large enough, and every smaller one it passed was
too small. -/
theorem clog2From_spec (x fuel b : Nat) (hx : x ≤ 2 ^ (b + fuel)) :
    x ≤ 2 ^ clog2From x fuel b ∧ b ≤ clog2From x fuel b ∧
      ∀ c, b ≤ c → c < clog2From x fuel b → 2 ^ c < x := by
  induction fuel generalizing b with
  | zero => exact ⟨by simpa [clog2From] using hx, le_refl _, fun c h1 h2 => by simp [clog2From] at h2; omega⟩
  | succ fuel ih =>
    unfold clog2From
    split
    · next h => exact ⟨h, le_refl _, fun c h1 h2 => by omega⟩
    · next h =>
      obtain ⟨h1, h2, h3⟩ := ih (b + 1) (by rwa [show b + 1 + fuel = b + (fuel + 1) by omega])
      refine ⟨h1, by omega, fun c hbc hc => ?_⟩
      rcases Nat.eq_or_lt_of_le hbc with rfl | hlt
      · omega
      · exact h3 c hlt hc

theorem le_two_pow_clog2 (x : Nat) : x ≤ 2 ^ clog2 x :=
  (clog2From_spec x x 0 (by simpa using Nat.lt_two_pow_self.le)).1

theorem two_pow_lt_of_lt_clog2 {x c : Nat} (h : c < clog2 x) : 2 ^ c < x :=
  (clog2From_spec x x 0 (by simpa using Nat.lt_two_pow_self.le)).2.2 c (Nat.zero_le _) h

/-- The parts of the elaboration check (R20). -/
theorem Params.legal_iff (p : Params) :
    p.legal = true ↔ (1 ≤ p.N ∧ 1 ≤ p.M) ∧ (16 ≤ p.W ∧ p.W ≤ 64) ∧ (1 ≤ p.TW ∧ p.TW ≤ p.W) ∧ p.hob < p.W := by
  simp [Params.legal, and_assoc]

theorem Params.legal_size {p : Params} (h : p.legal = true) :
    p.N ≤ 2 ^ p.indexBits ∧ p.M ≤ 2 ^ p.indexBits ∧ 2 * p.indexBits ≤ p.W := by
  have hm := le_two_pow_clog2 (max p.N p.M)
  have hl := (p.legal_iff.1 h)
  refine ⟨le_trans (le_max_left _ _) hm, le_trans (le_max_right _ _) hm, ?_⟩
  have : p.hob = 2 * p.indexBits - 1 := rfl
  omega

theorem Params.legal_index_lt {p : Params} (h : p.legal = true) {i : Nat} (hi : i < p.N ∨ i < p.M) : i < 2 ^ p.W := by
  have hs := Params.legal_size h
  have : 2 ^ p.indexBits ≤ 2 ^ p.W := Nat.pow_le_pow_right (by omega) (by omega)
  omega

@[simp] theorem truncTo_toNat (w : Nat) (v : Word) : (truncTo w v).toNat = v.toNat % 2 ^ w := by
  have h1 : v.toNat % 2 ^ w ≤ v.toNat := Nat.mod_le _ _
  have h2 := v.isLt
  simp only [truncTo, BitVec.toNat_ofNat]
  exact Nat.mod_eq_of_lt (by omega)

theorem truncTo_lt (w : Nat) (v : Word) : (truncTo w v).toNat < 2 ^ w := by
  rw [truncTo_toNat]; exact Nat.mod_lt _ (Nat.two_pow_pos w)

theorem zext_toNat {n : Nat} (h : n < 2 ^ 64) : (zext n).toNat = n := by
  simp only [zext, BitVec.toNat_ofNat]; exact Nat.mod_eq_of_lt h

/-- Cells have different positions (R41). -/
theorem Params.flat_inj {p : Params} {i j i' j' : Nat} (hj : j < p.M) (hj' : j' < p.M)
    (h : p.flat i j = p.flat i' j') : i = i' ∧ j = j' := by
  unfold Params.flat at h
  have hM : 0 < p.M := by omega
  have h1 : (i * p.M + j) / p.M = i := by
    rw [Nat.add_comm, Nat.add_mul_div_right _ _ hM, Nat.div_eq_of_lt hj]; omega
  have h2 : (i' * p.M + j') / p.M = i' := by
    rw [Nat.add_comm, Nat.add_mul_div_right _ _ hM, Nat.div_eq_of_lt hj']; omega
  have hi : i = i' := by rw [← h1, h, h2]
  subst hi
  exact ⟨rfl, by omega⟩

theorem Params.flat_lt_cells {p : Params} {i j : Nat} (hi : i < p.N) (hj : j < p.M) : p.flat i j < p.cells := by
  unfold Params.flat Params.cells
  calc i * p.M + j < i * p.M + p.M := by omega
    _ = (i + 1) * p.M := by ring
    _ ≤ p.N * p.M := Nat.mul_le_mul_right _ hi

/-- Every position below N·M is a cell's (R41). -/
theorem Params.exists_cell {p : Params} {k : Nat} (h : k < p.cells) : ∃ i j, i < p.N ∧ j < p.M ∧ p.flat i j = k := by
  unfold Params.cells at h
  have hM : 0 < p.M := Nat.pos_of_ne_zero fun h0 => by simp [h0] at h
  refine ⟨k / p.M, k % p.M, ?_, Nat.mod_lt _ hM, ?_⟩
  · rw [Nat.div_lt_iff_lt_mul hM]; exact h
  · unfold Params.flat; rw [Nat.mul_comm]; exact Nat.div_add_mod k p.M

/-! ### What legality bounds -/

theorem Params.hob_lt_64 {p : Params} (h : p.legal = true) : p.hob < 64 := by
  have := p.legal_iff.1 h
  omega

theorem Params.indexBits_le_32 {p : Params} (h : p.legal = true) : p.indexBits ≤ 32 := by
  have := Params.legal_size h
  have := p.legal_iff.1 h
  omega

/-- An index of a legal instance is below 2^B, and a word holds it (R90). -/
theorem Params.zext_index {p : Params} (h : p.legal = true) {i : Nat} (hi : i < p.N ∨ i < p.M) :
    (zext i).toNat = i ∧ i < 2 ^ p.indexBits := by
  have hs := Params.legal_size h
  have hp : 2 ^ p.indexBits ≤ 2 ^ 32 := Nat.pow_le_pow_right (by omega) (Params.indexBits_le_32 h)
  exact ⟨zext_toNat (by omega), by omega⟩

end Sys2Proof
end

