-- ==== Sys2Proof/Laws/Interleave.lean ====
section
/-! SUPPORT. The interleaver's loop: what it adds to its output from any cursor. -/

namespace Sys2Proof.Machine

theorem one_shift_ne_zero {n : Nat} (h : n < 64) : (1#64 <<< n) ≠ 0 := by
  intro h0
  have := congrArg (fun v : Word => v.getLsbD n) h0
  simp [h] at this

theorem getLsbD_one_shift {n : Nat} (h : n < 64) (p : Nat) : (1#64 <<< n).getLsbD p = decide (p = n) := by
  simp only [BitVec.getLsbD_shiftLeft, BitVec.getLsbD_one]
  by_cases h1 : p = n
  · subst h1; simp [h]
  · simp [h1]; omega

theorem one_shift_down {n : Nat} (h : n + 1 < 64) : (1#64 <<< (n + 1)) >>> 1 = 1#64 <<< n := by
  apply BitVec.eq_of_getLsbD_eq
  intro i _
  rw [BitVec.getLsbD_ushiftRight, getLsbD_one_shift h, getLsbD_one_shift (by omega)]
  exact decide_eq_decide.2 (by omega)

/-- A conditional OR with a one-hot cursor sets one bit. -/
theorem getLsbD_ite_or {n : Nat} (h : n < 64) (c : Bool) (out : Word) (p : Nat) :
    (if c = true then out ||| (1#64 <<< n) else out).getLsbD p = (out.getLsbD p || (decide (p = n) && c)) := by
  cases c <;> simp [getLsbD_one_shift h]

/-- R75's loop from cursor 1 << n at input bit k: output bits at or below n are taken in turn from a and b, upward from
bit k; the rest are as they were. -/
theorem getLsbD_interleaveFrom (a b : Word) (fuel k n : Nat) (out : Word) (p : Nat) (hn : n < 64)
    (hf : n < 2 * fuel) :
    (interleaveFrom a b fuel k (1#64 <<< n) out).getLsbD p =
      (out.getLsbD p || (decide (p ≤ n) &&
        if (n - p) % 2 = 0 then a.getLsbD (k + (n - p) / 2) else b.getLsbD (k + (n - p) / 2))) := by
  induction fuel generalizing k n out with
  | zero => omega
  | succ fuel ih =>
    unfold interleaveFrom
    rw [if_neg (one_shift_ne_zero hn)]
    match n, hn, hf with
    | 0, _, _ =>
      have h0 : (1#64 <<< 0) >>> 1 = 0#64 := by decide
      have hz : ∀ o, interleaveFrom a b fuel (k + 1) (0#64 >>> 1) o = o := by
        intro o; cases fuel <;> simp [interleaveFrom]
      simp only [h0, BitVec.or_zero, ite_self, hz, getLsbD_ite_or (n := 0) (by omega)]
      by_cases hp : p = 0 <;> simp [hp]
    | 1, _, _ =>
      have h1 : (1#64 <<< 1) >>> 1 = 1#64 <<< 0 := by decide
      have h0 : (1#64 <<< 0) >>> 1 = 0#64 := by decide
      have hz : ∀ o, interleaveFrom a b fuel (k + 1) 0#64 o = o := by
        intro o; cases fuel <;> simp [interleaveFrom]
      simp only [h1, h0, hz, getLsbD_ite_or (n := 0) (by omega), getLsbD_ite_or (n := 1) (by omega)]
      by_cases hp : p = 0
      · subst hp; simp
      · by_cases hp1 : p = 1
        · subst hp1; simp
        · simp [hp, hp1]; omega
    | n + 2, hn, hf =>
      simp only [one_shift_down (n := n + 1) (by omega), one_shift_down (n := n) (by omega),
        ih (k + 1) n _ (by omega) (by omega), getLsbD_ite_or (n := n + 1) (by omega), getLsbD_ite_or (n := n + 2) (by omega)]
      by_cases hp : p ≤ n
      · have e1 : (n + 2 - p) % 2 = (n - p) % 2 := by omega
        have e2 : k + (n + 2 - p) / 2 = k + 1 + (n - p) / 2 := by omega
        have e3 : p ≠ n + 2 := by omega
        have e4 : p ≠ n + 1 := by omega
        have e5 : p ≤ n + 2 := by omega
        simp [hp, e1, e2, e3, e4, e5]
      · by_cases h1 : p = n + 1
        · subst h1
          simp
        · by_cases h2 : p = n + 2
          · subst h2; simp
          · have : ¬ p ≤ n + 2 := by omega
            simp [hp, h1, h2, this]

/-! ### Words as bits -/

/-- A word is below 2^m exactly when its bits from m up are 0. -/
theorem toNat_lt_two_pow_iff (a : Word) (m : Nat) : a.toNat < 2 ^ m ↔ ∀ k, m ≤ k → a.getLsbD k = false := by
  constructor
  · intro h k hk
    rw [BitVec.getLsbD]
    exact Nat.testBit_lt_two_pow (lt_of_lt_of_le h (Nat.pow_le_pow_right (by omega) hk))
  · intro h
    exact Nat.lt_pow_two_of_testBit _ h

/-- There is a word with any bits one likes. -/
theorem exists_word_of_bits (f : Nat → Bool) : ∃ a : Word, ∀ k, a.getLsbD k = (decide (k < 64) && f k) := by
  refine ⟨BitVec.ofFnLE fun i : Fin 64 => f i, fun k => ?_⟩
  by_cases h : k < 64
  · simp [h]
  · simp [h, BitVec.getLsbD_of_ge _ k (Nat.not_lt.1 h)]

theorem word_ext_bits {a b : Word} (h : ∀ k, a.getLsbD k = b.getLsbD k) : a = b :=
  BitVec.eq_of_getLsbD_eq fun i _ => h i

end Sys2Proof.Machine
end

