-- ==== Sys2Proof/Laws/Matrix.lean ====
section
/-! SUPPORT. What a GEN can do, said once: one cell step (`genCell_cases`), and any number of them
(`genCells_progress`): the fill is still running, or it finished, or it faulted at the first cell that does not fit. -/

namespace Sys2Proof.Machine

/-! ### Narrowing -/

theorem fitsElement_iff (p : Params) (v : Word) : fitsElement p v = true ↔ v.toNat < 2 ^ p.TW := by
  simp [fitsElement]

/-- What `narrow` stores is the element of R95, if the range check has let the value through. -/
theorem narrow_elementOf (p : Params) (draws i j : Nat)
    (h : p.rangeCheck = true → (wideValue p i j).toNat < 2 ^ p.TW) :
    elementOf p i j (narrow p draws (wideValue p i j)).1 := by
  unfold narrow elementOf
  by_cases hf : (wideValue p i j).toNat < 2 ^ p.TW
  · rw [if_pos ((fitsElement_iff p _).2 hf)]
    exact ⟨hf, fun _ => rfl, fun h' => by omega⟩
  · rw [if_neg (fun h' => hf ((fitsElement_iff p _).1 h'))]
    have hr : p.rangeCheck = false := by cases hc : p.rangeCheck with
      | false => rfl
      | true => exact absurd (h hc) hf
    cases ho : p.overflow with
    | truncate => exact ⟨truncTo_lt _ _, fun h' => absurd h' hf, fun _ => ⟨hr, fun _ => rfl⟩⟩
    | any => exact ⟨truncTo_lt _ _, fun h' => absurd h' hf, fun _ => ⟨hr, fun h' => by simp at h'⟩⟩

/-- No value is drawn when the value fits, or in TRUNCATE. -/
theorem narrow_draws (p : Params) (draws : Nat) (v : Word)
    (h : v.toNat < 2 ^ p.TW ∨ p.overflow = .truncate) : (narrow p draws v).2 = draws := by
  unfold narrow
  split
  · rfl
  · next hf =>
    rcases h with h | h
    · exact absurd ((fitsElement_iff p v).2 h) hf
    · rw [h]

/-! ### The cursor -/

theorem next_eq_some {p : Params} {c c' : Cursor} (h : c.next p = some c') (hr : c.row < p.N) (hc : c.col < p.M) :
    c'.row < p.N ∧ c'.col < p.M ∧ p.flat c'.row c'.col = p.flat c.row c.col + 1 ∧
      ∀ i j, j < p.M → (visitedBefore i j c'.row c'.col ↔ visitedBefore i j c.row c.col ∨ (i = c.row ∧ j = c.col)) := by
  unfold Cursor.next at h
  split at h
  · next h1 =>
    obtain rfl := Option.some.inj h
    refine ⟨hr, h1, by simp [Params.flat]; omega, fun i j hj => ?_⟩
    simp only [visitedBefore]; omega
  · next h1 =>
    split at h
    · next h2 =>
      obtain rfl := Option.some.inj h
      refine ⟨h2, by simp; omega, ?_, fun i j hj => ?_⟩
      · simp only [Params.flat]
        have : p.M = c.col + 1 := by omega
        rw [this]; ring
      · simp only [visitedBefore]; omega
    · simp at h

theorem next_eq_none {p : Params} {c : Cursor} (h : c.next p = none) (hr : c.row < p.N) (hc : c.col < p.M)
    {i j : Nat} (hi : i < p.N) (hj : j < p.M) : visitedBefore i j c.row c.col ∨ (i = c.row ∧ j = c.col) := by
  unfold Cursor.next at h
  split at h
  · simp at h
  · split at h
    · simp at h
    · simp only [visitedBefore]; omega

/-! ### The matrix being filled -/

/-- The list holds exactly the cells `upTo` names, in canonical form, each with the element R95 gives it. -/
structure Filled (p : Params) (upTo : Nat → Nat → Prop) (lut : Memory) : Prop where
  wf : Memory.wf lut = true
  inside : ∀ k x, Memory.read lut k = some x → k < p.cells
  element : ∀ i j x, i < p.N → j < p.M → Memory.read lut (p.flat i j) = some x → elementOf p i j x
  listed : ∀ i j, i < p.N → j < p.M → ((∃ x, Memory.read lut (p.flat i j) = some x) ↔ upTo i j)

theorem filled_nil (p : Params) : Filled p (fun i j => visitedBefore i j 0 0) [] where
  wf := rfl
  inside := by simp
  element := by simp
  listed := by simp [visitedBefore]

/-- Storing the cursor's element. -/
theorem Filled.write {p : Params} {upTo : Nat → Nat → Prop} {lut : Memory} (h : Filled p upTo lut) {r c : Nat}
    (hr : r < p.N) (hc : c < p.M) {x : Word} (hx : elementOf p r c x) :
    Filled p (fun i j => upTo i j ∨ (i = r ∧ j = c)) (Memory.write lut (p.flat r c) x) where
  wf := Memory.wf_write h.wf _ _
  inside k y hk := by
    rw [Memory.read_write] at hk
    split at hk
    · next e => rw [← e]; exact Params.flat_lt_cells hr hc
    · exact h.inside k y hk
  element i j y hi hj hy := by
    rw [Memory.read_write] at hy
    split at hy
    · next e =>
      obtain ⟨rfl, rfl⟩ := Params.flat_inj hc hj e
      exact Option.some.inj hy ▸ hx
    · exact h.element i j y hi hj hy
  listed i j hi hj := by
    rw [Memory.read_write]
    split
    · next e =>
      obtain ⟨rfl, rfl⟩ := Params.flat_inj hc hj e
      simp
    · next e =>
      have hne : ¬ (i = r ∧ j = c) := fun he => e (by rw [he.1, he.2])
      simp [h.listed i j hi hj, hne]

theorem Filled.congr {p : Params} {P Q : Nat → Nat → Prop} {lut : Memory} (h : Filled p P lut)
    (e : ∀ i j, i < p.N → j < p.M → (Q i j ↔ P i j)) : Filled p Q lut :=
  ⟨h.wf, h.inside, h.element, fun i j hi hj => (h.listed i j hi hj).trans (e i j hi hj).symm⟩

/-- With the range check on, every cell that has an element has a value that fits. -/
theorem Filled.fits {p : Params} {upTo : Nat → Nat → Prop} {lut : Memory} (h : Filled p upTo lut)
    (hr : p.rangeCheck = true) {i j : Nat} (hi : i < p.N) (hj : j < p.M) (hu : upTo i j) :
    (wideValue p i j).toNat < 2 ^ p.TW := by
  obtain ⟨x, hx⟩ := (h.listed i j hi hj).2 hu
  by_contra hn
  have := ((h.element i j x hi hj hx).2.2 (by omega)).1
  simp [hr] at this

/-! ### One cell -/

/-- Everything one cell step can do. -/
theorem genCell_cases {s : State} {c : Cursor} (h : s.fill = some c) :
    (s.cfg.rangeCheck = true ∧ 2 ^ s.cfg.TW ≤ (wideValue s.cfg c.row c.col).toNat ∧
      genCell s = { s with lut := [], fill := none }.faulted .range (zext c.row) (zext c.col)
        (wideValue s.cfg c.row c.col)) ∨
    ((s.cfg.rangeCheck = true → (wideValue s.cfg c.row c.col).toNat < 2 ^ s.cfg.TW) ∧
      ∃ x d, x = (narrow s.cfg s.draws (wideValue s.cfg c.row c.col)).1 ∧
        d = (narrow s.cfg s.draws (wideValue s.cfg c.row c.col)).2 ∧
        ((∃ c', c.next s.cfg = some c' ∧
            genCell s =
              { s with lut := Memory.write s.lut (s.cfg.flat c.row c.col) x, draws := d, fill := some c' }) ∨
          (c.next s.cfg = none ∧
            genCell s =
              { s with
                lut := Memory.write s.lut (s.cfg.flat c.row c.col) x, draws := d, fill := none, phase := .done,
                port := .answering { err := false, data := 0 } }))) := by
  unfold genCell
  rw [h]
  simp only [Bool.and_eq_true, Bool.not_eq_true', ← Bool.not_eq_true, fitsElement_iff]
  split
  · next hc => exact .inl ⟨hc.1, by omega, rfl⟩
  · next hc =>
    refine .inr ⟨fun hr => by by_contra hn; exact hc ⟨hr, hn⟩, _, _, rfl, rfl, ?_⟩
    unfold genStore
    cases hn : c.next s.cfg with
    | some c' => exact .inl ⟨c', rfl, by simp [lutWrite]⟩
    | none => exact .inr ⟨rfl, by simp [lutWrite, genFinish, respond]⟩

/-! ### Many cells -/

/-- A fill of `s₀`'s GEN is running: the cursor is at `c`, and exactly the cells before it are stored. -/
structure FillRunning (s₀ : State) (c : Cursor) (s : State) : Prop where
  row : c.row < s₀.cfg.N
  col : c.col < s₀.cfg.M
  state : ∃ lut draws, s = { s₀ with lut := lut, draws := draws, fill := some c } ∧
    Filled s₀.cfg (fun i j => visitedBefore i j c.row c.col) lut ∧
    (s₀.cfg.rangeCheck = true ∨ s₀.cfg.overflow = .truncate → draws = s₀.draws)

/-- A fill of `s₀`'s GEN has finished: every cell is stored. -/
def FillDone (s₀ s : State) : Prop :=
  ∃ lut draws,
    s = { s₀ with
      lut := lut, draws := draws, fill := none, phase := .done, port := .answering { err := false, data := 0 } } ∧
    Filled s₀.cfg (fun _ _ => True) lut ∧
    (s₀.cfg.rangeCheck = true ∨ s₀.cfg.overflow = .truncate → draws = s₀.draws)

/-- A fill of `s₀`'s GEN has raised RANGE at the first cell that does not fit. -/
def FillFault (s₀ s : State) : Prop :=
  ∃ i j, i < s₀.cfg.N ∧ j < s₀.cfg.M ∧ s₀.cfg.rangeCheck = true ∧
    2 ^ s₀.cfg.TW ≤ (wideValue s₀.cfg i j).toNat ∧
    (∀ i' j', i' < s₀.cfg.N → j' < s₀.cfg.M → visitedBefore i' j' i j →
      (wideValue s₀.cfg i' j').toNat < 2 ^ s₀.cfg.TW) ∧
    s = { s₀ with lut := [], fill := none }.faulted .range (zext i) (zext j) (wideValue s₀.cfg i j)

theorem FillDone.fill {s₀ s : State} (h : FillDone s₀ s) : s.fill = none := by
  obtain ⟨lut, draws, rfl, -⟩ := h; rfl

theorem FillFault.fill {s₀ s : State} (h : FillFault s₀ s) : s.fill = none := by
  obtain ⟨i, j, -, -, -, -, -, rfl⟩ := h; rfl

theorem FillRunning.fill {s₀ s : State} {c : Cursor} (h : FillRunning s₀ c s) : s.fill = some c := by
  obtain ⟨lut, draws, rfl, -⟩ := h.state; rfl

/-- One cell step of a running fill: it runs on, one cell further; or it is over. -/
theorem FillRunning.step {s₀ s : State} {c : Cursor} (h : FillRunning s₀ c s) :
    (∃ c', s₀.cfg.flat c'.row c'.col = s₀.cfg.flat c.row c.col + 1 ∧ FillRunning s₀ c' (genCell s)) ∨
      FillDone s₀ (genCell s) ∨ FillFault s₀ (genCell s) := by
  obtain ⟨lut, draws, rfl, hf, hd⟩ := h.state
  rcases genCell_cases (s := { s₀ with lut := lut, draws := draws, fill := some c }) rfl with
    ⟨hr, hv, hg⟩ | ⟨hfit, x, d, hx, hdr, hcase⟩
  · obtain rfl := hd (.inl hr)
    exact .inr (.inr ⟨c.row, c.col, h.row, h.col, hr, hv, fun i' j' hi hj hb => hf.fits hr hi hj hb, hg⟩)
  · have hel : elementOf s₀.cfg c.row c.col x := by rw [hx]; exact narrow_elementOf _ _ _ _ hfit
    have hw := hf.write h.row h.col hel
    have hdd : s₀.cfg.rangeCheck = true ∨ s₀.cfg.overflow = .truncate → d = s₀.draws := by
      intro ho
      rw [hdr, ← hd ho]
      exact narrow_draws _ _ _ (ho.imp hfit id)
    rcases hcase with ⟨c', hn, hg⟩ | ⟨hn, hg⟩
    · obtain ⟨h1, h2, h3, h4⟩ := next_eq_some hn h.row h.col
      refine .inl ⟨c', h3, h1, h2, _, d, hg, hw.congr fun i j hi hj => h4 i j hj, hdd⟩
    · refine .inr (.inl ⟨_, d, hg, hw.congr fun i j hi hj => ?_, hdd⟩)
      exact ⟨fun _ => next_eq_none hn h.row h.col hi hj, fun _ => trivial⟩

theorem genCells_of_fill_none {s : State} (h : s.fill = none) (k : Nat) : genCells k s = s := by
  cases k <;> simp [genCells, h]

/-- Cell steps add up. -/
theorem genCells_add (m n : Nat) (s : State) : genCells (m + n) s = genCells n (genCells m s) := by
  induction m generalizing s with
  | zero => simp [genCells]
  | succ m ih =>
    rw [Nat.succ_add]
    simp only [genCells]
    split
    · exact ih _
    · next h => rw [genCells_of_fill_none (by simpa using h)]

/-- Any number of cell steps of a running fill. -/
theorem genCells_progress {s₀ s : State} {c : Cursor} (h : FillRunning s₀ c s) (k : Nat) :
    (∃ c', s₀.cfg.flat c'.row c'.col = s₀.cfg.flat c.row c.col + k ∧ FillRunning s₀ c' (genCells k s)) ∨
      FillDone s₀ (genCells k s) ∨ FillFault s₀ (genCells k s) := by
  induction k generalizing c s with
  | zero => exact .inl ⟨c, rfl, h⟩
  | succ k ih =>
    simp only [genCells, h.fill, Option.isSome_some, if_true]
    rcases h.step with ⟨c', hc, hr⟩ | hd | hf
    · rcases ih hr with ⟨c'', hc', hr'⟩ | hd | hf
      · exact .inl ⟨c'', by omega, hr'⟩
      · exact .inr (.inl hd)
      · exact .inr (.inr hf)
    · rw [genCells_of_fill_none hd.fill]; exact .inr (.inl hd)
    · rw [genCells_of_fill_none hf.fill]; exact .inr (.inr hf)

/-- N·M cell steps end every running fill. -/
theorem genCells_ends {s₀ s : State} {c : Cursor} (h : FillRunning s₀ c s) :
    FillDone s₀ (genCells s₀.cfg.cells s) ∨ FillFault s₀ (genCells s₀.cfg.cells s) := by
  rcases genCells_progress h s₀.cfg.cells with ⟨c', hc, hr⟩ | hd | hf
  · have := Params.flat_lt_cells hr.row hr.col
    omega
  · exact .inl hd
  · exact .inr hf

/-- The start of a fill. -/
theorem genStart_running {s : State} (hl : s.cfg.legal = true) (hf : s.fill = none) :
    FillRunning s { row := 0, col := 0 } (genStart s) := by
  have hp := (Params.legal_iff _).1 hl
  refine ⟨by simp; omega, by simp; omega, [], s.draws, ?_, filled_nil _, fun _ => rfl⟩
  simp [genStart, hf]

/-- A fill the state is in the middle of. -/
theorem genStart_resumed {s : State} {c : Cursor} (hi : s.LutInv) (hf : s.fill = some c) :
    FillRunning s c (genStart s) := by
  obtain ⟨hw, hin, hel, -, -, hfill⟩ := hi
  obtain ⟨-, hr, hc, hb⟩ := hfill c hf
  have hs : genStart s = s := by simp [genStart, hf]
  refine ⟨hr, hc, s.lut, s.draws, ?_, ⟨hw, hin, hel, hb⟩, fun _ => rfl⟩
  rw [hs, ← hf]

/-- Whether it begins or resumes. -/
theorem genStart_some_running {s : State} (hl : s.cfg.legal = true) (hi : s.LutInv) :
    ∃ c, FillRunning s c (genStart s) := by
  cases hf : s.fill with
  | none => exact ⟨_, genStart_running hl hf⟩
  | some c => exact ⟨c, genStart_resumed hi hf⟩

/-- A property of states that each cell step keeps is kept by any number of them. -/
theorem genCells_induct {P : State → Prop} (hstep : ∀ s, P s → s.fill.isSome = true → P (genCell s)) (k : Nat)
    {s : State} (h : P s) : P (genCells k s) := by
  induction k generalizing s with
  | zero => exact h
  | succ k ih =>
    simp only [genCells]
    split
    · next hs => exact ih (hstep s h hs)
    · exact h

end Sys2Proof.Machine
end

