-- ==== Sys2Proof/Laws/Command.lean ====
section
/-! SUPPORT. What each command can do, said once: `exec_read_cases`, `execGen_of_empty` and `execGen_of_not_empty`. -/

namespace Sys2Proof.Machine

theorem unlessFaulted_of_fault {s : State} (h : s.phase = .fault) (o : Outcome) :
    unlessFaulted s o = .next (s.answered true 0) := by simp [unlessFaulted, h, reject_eq_answered]

theorem unlessFaulted_of_serving {s : State} (h : s.phase ≠ .fault) (o : Outcome) : unlessFaulted s o = o := by
  simp [unlessFaulted, h]

/-- The check ILV and VAL share, when h is below the width. -/
theorem evaluateBelowWidth_of_lt {h : BitVec 6} {s : State} (hp : s.phase ≠ .fault) (hw : h.toNat < s.cfg.W)
    (v : Word) : evaluateBelowWidth h v s = .next (s.answered false v) := by
  unfold evaluateBelowWidth
  rw [unlessFaulted_of_serving hp, if_neg (show ¬ s.cfg.W ≤ operandH h from Nat.not_le.2 hw), respond_eq_answered]

/-- The check ILV and VAL share, when it fails. -/
theorem evaluateBelowWidth_of_ge {h : BitVec 6} {s : State} (hp : s.phase ≠ .fault) (hw : s.cfg.W ≤ h.toNat)
    (v : Word) :
    evaluateBelowWidth h v s = .next (s.faulted .hobRange s.request.opa s.request.opb (zext h.toNat)) := by
  unfold evaluateBelowWidth
  rw [unlessFaulted_of_serving hp, if_pos (show s.cfg.W ≤ operandH h from hw), raiseFault_eq_faulted]

/-- The register file has a value exactly for sel 0 to 10 (R27). -/
theorem readRegister_isSome (s : State) (sel : BitVec 6) : (readRegister s sel).isSome = true ↔ sel.toNat ≤ 10 := by
  unfold readRegister
  split <;> simp_all
  omega

/-- GEN in EMPTY ends in one of two ways. -/
theorem execGen_of_empty {s : State} (hp : s.phase = .empty) {c : Cursor} (h : FillRunning s c (genStart s)) :
    ∃ t, execGen s = .next t ∧ (FillDone s t ∨ FillFault s t) := by
  refine ⟨genCells s.cfg.cells (genStart s), ?_, genCells_ends h⟩
  simp [execGen, unlessFaulted, hp]

/-- RDL in DONE at a cell whose element is known. -/
theorem execRdl_of_element {s : State} (hd : s.phase = .done) (hr : s.request.opa.toNat < s.cfg.N)
    (hc : s.request.opb.toNat < s.cfg.M) {x : Word}
    (hx : lutRead s s.request.opa.toNat s.request.opb.toNat = some x) : execRdl s = .next (s.answered false x) := by
  simp only [execRdl, operandA, operandB]
  rw [unlessFaulted_of_serving (by simp [hd]), if_neg (by simp [hd]), if_neg (by omega), hx]
  rfl

/-- RDL in DONE at an index out of range. -/
theorem execRdl_of_out_of_range {s : State} (hd : s.phase = .done)
    (hx : s.cfg.N ≤ s.request.opa.toNat ∨ s.cfg.M ≤ s.request.opb.toNat) :
    execRdl s = .next (s.faulted .badIndex s.request.opa s.request.opb 0) := by
  simp only [execRdl, operandA, operandB]
  rw [unlessFaulted_of_serving (by simp [hd]), if_neg (by simp [hd]), if_pos hx, raiseFault_eq_faulted]

/-- RDL in EMPTY. -/
theorem execRdl_of_empty {s : State} (he : s.phase = .empty) :
    execRdl s = .next (s.faulted .notReady s.request.opa s.request.opb 0) := by
  simp only [execRdl, operandA, operandB]
  rw [unlessFaulted_of_serving (by simp [he]), if_pos (by simp [he]), raiseFault_eq_faulted]

/-- Every command but GEN does one of three things: it answers and changes nothing else, it enters FAULT from another phase
and changes nothing else, or, an RDL, it finds no element in DONE. -/
theorem exec_read_cases (i : Instr) (s : State) (hi : i ≠ .gen) :
    (∃ err v, exec i s = .next (s.answered err v) ∧ (err = true → v = 0 ∧ s.phase = .fault)) ∨
      (s.phase ≠ .fault ∧ ∃ c a b v, c ≠ .none ∧ exec i s = .next (s.faulted c a b v)) ∨
      (i = .rdl ∧ s.phase = .done ∧ exec i s = .fault .elementHasNoValue ∧
        (operandA s).toNat < s.cfg.N ∧ (operandB s).toNat < s.cfg.M ∧
        lutRead s (operandA s).toNat (operandB s).toNat = none) := by
  by_cases hf : s.phase = .fault
  · left
    cases i with
    | gen => exact absurd rfl hi
    | ilv h => exact ⟨true, 0, unlessFaulted_of_fault hf _, fun _ => ⟨rfl, hf⟩⟩
    | val h => exact ⟨true, 0, unlessFaulted_of_fault hf _, fun _ => ⟨rfl, hf⟩⟩
    | rdl => exact ⟨true, 0, unlessFaulted_of_fault hf _, fun _ => ⟨rfl, hf⟩⟩
    | rdr sel =>
      simp only [exec, execRdr]
      split
      · next v _ => exact ⟨false, v, rfl, by simp⟩
      · exact ⟨true, 0, unlessFaulted_of_fault hf _, fun _ => ⟨rfl, hf⟩⟩
  · cases i with
    | gen => exact absurd rfl hi
    | ilv h =>
      simp only [exec, execIlv, evaluateBelowWidth, unlessFaulted_of_serving hf]
      split
      · exact .inr (.inl ⟨hf, .hobRange, _, _, _, by simp, rfl⟩)
      · exact .inl ⟨false, _, rfl, by simp⟩
    | val h =>
      simp only [exec, execVal, evaluateBelowWidth, unlessFaulted_of_serving hf]
      split
      · exact .inr (.inl ⟨hf, .hobRange, _, _, _, by simp, rfl⟩)
      · exact .inl ⟨false, _, rfl, by simp⟩
    | rdl =>
      simp only [exec, execRdl, unlessFaulted_of_serving hf]
      split
      · exact .inr (.inl ⟨hf, .notReady, _, _, _, by simp, rfl⟩)
      · next hd =>
        split
        · exact .inr (.inl ⟨hf, .badIndex, _, _, _, by simp, rfl⟩)
        · next hr =>
          split
          · exact .inl ⟨false, _, rfl, by simp⟩
          · next hn => exact .inr (.inr ⟨trivial, by simpa using hd, rfl, by omega, by omega, hn⟩)
    | rdr sel =>
      simp only [exec, execRdr]
      split
      · exact .inl ⟨false, _, rfl, by simp⟩
      · simp only [illegalCommand, unlessFaulted_of_serving hf]
        exact .inr (.inl ⟨hf, .illegalCmd, _, _, _, by simp, rfl⟩)

/-- GEN out of EMPTY changes nothing but the response. -/
theorem execGen_of_not_empty {s : State} (h : s.phase ≠ .empty) :
    ∃ err, execGen s = .next (s.answered err 0) ∧ (err = true ↔ s.phase = .fault) := by
  by_cases hf : s.phase = .fault
  · exact ⟨true, unlessFaulted_of_fault hf _, by simp [hf]⟩
  · have hd : s.phase = .done := by cases hp : s.phase <;> simp_all
    refine ⟨false, ?_, by simp [hf]⟩
    simp [execGen, unlessFaulted, hd, respond_eq_answered]

/-- Whatever the state, one cell step leaves all but the LUT, the cursor, the draws, the port, PHASE and the fault record
alone. -/
theorem genCell_frame (s : State) :
    (genCell s).cfg = s.cfg ∧ (genCell s).request = s.request ∧ (genCell s).turns = s.turns ∧
      (genCell s).received = s.received := by
  cases h : s.fill with
  | none => simp [genCell, h]
  | some c =>
    rcases genCell_cases h with ⟨-, -, hg⟩ | ⟨-, x, d, -, -, ⟨c', -, hg⟩ | ⟨-, hg⟩⟩ <;> rw [hg] <;> simp

theorem genStart_frame (s : State) :
    (genStart s).cfg = s.cfg ∧ (genStart s).request = s.request ∧ (genStart s).turns = s.turns ∧
      (genStart s).received = s.received ∧ (genStart s).phase = s.phase ∧ (genStart s).port = s.port ∧
      (genStart s).cause = s.cause ∧ (genStart s).fcmd = s.fcmd ∧ (genStart s).fa = s.fa ∧ (genStart s).fb = s.fb ∧
      (genStart s).fval = s.fval := by
  unfold genStart; split <;> simp

/-! ### A fill in outline, whatever the state it is run from -/

/-- What cell steps from `s`, in EMPTY, have done by `u`, without saying what is in the LUT: still filling; or DONE; or
FAULT with cause RANGE. -/
structure FillOutline (s u : State) : Prop where
  cfg : u.cfg = s.cfg
  request : u.request = s.request
  turns : u.turns = s.turns
  received : u.received = s.received
  ending :
    (u.phase = .empty ∧ u.port = s.port ∧ u.cause = s.cause ∧ u.fcmd = s.fcmd ∧ u.fa = s.fa ∧ u.fb = s.fb ∧
        u.fval = s.fval) ∨
      (u.phase = .done ∧ u.fill = none ∧ u.port = .answering { err := false, data := 0 } ∧ u.cause = s.cause ∧
        u.fcmd = s.fcmd ∧ u.fa = s.fa ∧ u.fb = s.fb ∧ u.fval = s.fval) ∨
      (u.phase = .fault ∧ u.fill = none ∧ u.port = .answering { err := true, data := 0 } ∧ u.cause = .range ∧
        u.lut = [])

theorem genStart_outline {s : State} (h : s.phase = .empty) : FillOutline s (genStart s) := by
  obtain ⟨h1, h2, h3, h4, h5, h6, h7, h8, h9, h10, h11⟩ := genStart_frame s
  exact ⟨h1, h2, h3, h4, .inl ⟨h5.trans h, h6, h7, h8, h9, h10, h11⟩⟩

theorem FillOutline.cell {s u : State} (h : FillOutline s u) (hf : u.phase = .empty) :
    FillOutline s (genCell u) := by
  obtain ⟨f1, f2, f3, f4⟩ := genCell_frame u
  obtain ⟨-, e2, e3, e4, e5, e6, e7⟩ | ⟨e1, -⟩ | ⟨e1, -⟩ := h.ending
  · refine ⟨f1.trans h.cfg, f2.trans h.request, f3.trans h.turns, f4.trans h.received, ?_⟩
    cases hc : u.fill with
    | none =>
      have hg : genCell u = u := by simp [genCell, hc]
      rw [hg]; exact .inl ⟨hf, e2, e3, e4, e5, e6, e7⟩
    | some c =>
      rcases genCell_cases hc with ⟨-, -, hg⟩ | ⟨-, x, d, -, -, ⟨c', -, hg⟩ | ⟨-, hg⟩⟩ <;> rw [hg]
      · exact .inr (.inr ⟨rfl, rfl, rfl, rfl, rfl⟩)
      · exact .inl ⟨hf, e2, e3, e4, e5, e6, e7⟩
      · exact .inr (.inl ⟨rfl, rfl, rfl, e3, e4, e5, e6, e7⟩)
  · rw [hf] at e1; simp at e1
  · rw [hf] at e1; simp at e1

theorem genCells_outline {s : State} (h : s.phase = .empty) (k : Nat) : FillOutline s (genCells k (genStart s)) := by
  refine genCells_induct (P := FillOutline s) (fun u hu hs => ?_) k (genStart_outline h)
  rcases hu.ending with ⟨e, -⟩ | ⟨-, e, -⟩ | ⟨-, e, -⟩
  · exact hu.cell e
  · rw [e] at hs; simp at hs
  · rw [e] at hs; simp at hs

/-! ### The schedule rides along -/

/-- No cell step looks at the schedule. -/
theorem genCell_turns (s : State) (ts : List Turn) :
    genCell { s with turns := ts } = { genCell s with turns := ts } := by
  cases h : s.fill with
  | none => simp [genCell, h]
  | some c =>
    simp only [genCell, h]
    split
    · rfl
    · unfold genStore
      simp only [lutWrite]
      cases c.next s.cfg <;> rfl

theorem genStart_turns (s : State) (ts : List Turn) :
    genStart { s with turns := ts } = { genStart s with turns := ts } := by
  unfold genStart
  cases h : s.fill <;> simp [h]

theorem genCells_frame (k : Nat) (s : State) :
    (genCells k s).cfg = s.cfg ∧ (genCells k s).turns = s.turns := by
  refine genCells_induct (P := fun u => u.cfg = s.cfg ∧ u.turns = s.turns) (fun u hu _ => ?_) k ⟨rfl, rfl⟩
  have := genCell_frame u
  exact ⟨this.1.trans hu.1, this.2.2.1.trans hu.2⟩

/-! ### One command at a time -/

/-- In FAULT every command but RDR is rejected (R120). -/
theorem exec_of_fault {s : State} {i : Instr} (hp : s.phase = .fault) (h : ∀ sel, i ≠ .rdr sel) :
    exec i s = .next (s.answered true 0) := by
  cases i with
  | rdr sel => exact absurd rfl (h sel)
  | ilv h => exact unlessFaulted_of_fault hp _
  | val h => exact unlessFaulted_of_fault hp _
  | gen => exact unlessFaulted_of_fault hp _
  | rdl => exact unlessFaulted_of_fault hp _

/-- A legal RDR is answered in every phase (R110). -/
theorem exec_rdr_of_legal {s : State} {sel : BitVec 6} (h : sel.toNat ≤ 10) :
    ∃ v, readRegister s sel = some v ∧ exec (.rdr sel) s = .next (s.answered false v) := by
  obtain ⟨v, hv⟩ := Option.isSome_iff_exists.1 ((readRegister_isSome s sel).2 h)
  exact ⟨v, hv, by simp [exec, execRdr, hv, respond_eq_answered]⟩

/-- An RDR that decodes has a legal sel (R65). -/
theorem sel_le_of_decode {w : BitVec 16} {sel : BitVec 6} (h : decode w = .instr (.rdr sel)) : sel.toNat ≤ 10 := by
  have := ((decode_eq_instr_iff _ _).1 h).2.2.2
  simpa [Instr.wellFormed] using this

theorem exec_gen_of_empty {s : State} (hp : s.phase = .empty) :
    exec .gen s = .next (genCells s.cfg.cells (genStart s)) := by
  simp [exec, execGen, unlessFaulted, hp]

end Sys2Proof.Machine
end

