-- ==== Sys2Proof/Laws/PerInstr.lean ====
section
/-! SUPPORT. Families of statements made per command, one lemma per constructor. -/

namespace Sys2Proof.Laws.FormatFields

/-- R57, R60, R62: the word of a command has RSV = 0, the command's opcode in OP and its operand in HS, and it fits the
command's row of the match and mask table whenever the command is well formed. -/
def Statement (i : Instr) : Prop :=
  rsvField (encode i) = 0 ∧ opField (encode i) = opcode i ∧ hsField (encode i) = hsOf i ∧
    (i.wellFormed = true → (opcodeRow i).fits (encode i) = true)

theorem ilv (h : BitVec 6) : Statement (.ilv h) := by
  refine ⟨by simp [encode], by simp [encode], by simp [encode], ?_⟩
  revert h; decide

theorem val (h : BitVec 6) : Statement (.val h) := by
  refine ⟨by simp [encode], by simp [encode], by simp [encode], ?_⟩
  revert h; decide

theorem gen : Statement .gen := by unfold Statement; decide

theorem rdl : Statement .rdl := by unfold Statement; decide

theorem rdr (sel : BitVec 6) : Statement (.rdr sel) := by
  refine ⟨by simp [encode], by simp [encode], by simp [encode], ?_⟩
  revert sel; decide

end Sys2Proof.Laws.FormatFields
end

