-- ==== Sys2Proof/Laws/Port.lean ====
section
/-! SUPPORT. What a step can do, said once (`step_cases`), and the port's small laws. -/

namespace Sys2Proof.Machine

theorem generating_iff (s : State) :
    generating s = true ↔ s.port = .accepted ∧ s.phase = .empty ∧ decode s.request.cmd = .instr .gen := by
  simp [generating, and_assoc]

/-- Everything a step can do: the instance is legal, and the next turn is a reset edge, another clock edge, the block's
performing of a command (or of an illegal word), a cell of a GEN in progress, or nothing. -/
theorem step_cases {s t : State} (h : step s = .next t) :
    s.cfg.legal = true ∧
      ((s.resetNext = true ∧ t = resetEdge (popTurn s)) ∨
        (s.resetNext = false ∧ ∃ i : PortInputs, i.rst = false ∧ t = handshake i (popTurn s)) ∨
        (s.resetNext = false ∧ s.port = .accepted ∧ performCommand (popTurn s) = .next t) ∨
        (s.resetNext = false ∧ generating s = true ∧ t = genCell (genStart (popTurn s))) ∨
        (s.resetNext = false ∧ t = popTurn s)) := by
  unfold step at h
  split at h
  · next hl =>
    refine ⟨hl, ?_⟩
    unfold State.resetNext
    cases hn : nextTurn s with
    | edge i =>
      rw [hn] at h
      simp only [takeTurn, clockEdge, Host.Outcome.next.injEq] at h
      split at h
      · next hr => exact .inl ⟨hr, h.symm⟩
      · next hr => exact .inr (.inl ⟨by simpa using hr, i, by simpa using hr, h.symm⟩)
    | perform =>
      rw [hn] at h
      simp only [takeTurn, performTurn] at h
      split at h
      · next hp => exact .inr (.inr (.inl ⟨rfl, hp, h⟩))
      · exact .inr (.inr (.inr (.inr ⟨rfl, (Host.Outcome.next.inj h).symm⟩)))
    | cell =>
      rw [hn] at h
      simp only [takeTurn, cellTurn, Host.Outcome.next.injEq] at h
      split at h
      · next hg => exact .inr (.inr (.inr (.inl ⟨rfl, hg, h.symm⟩)))
      · exact .inr (.inr (.inr (.inr ⟨rfl, h.symm⟩)))
  · simp at h

/-- Everything performing the accepted word can do: it is answered and nothing else changes; it faults out of a phase other
than FAULT and nothing else changes; or it is a GEN in EMPTY, which fills. -/
theorem performCommand_cases {s t : State} (h : performCommand s = .next t) :
    (∃ err v, t = s.answered err v ∧ (err = true → v = 0 ∧ s.phase = .fault)) ∨
      (s.phase ≠ .fault ∧ ∃ c a b v, c ≠ .none ∧ t = s.faulted c a b v) ∨
      (s.phase = .empty ∧ decode s.request.cmd = .instr .gen ∧ t = genCells s.cfg.cells (genStart s)) := by
  unfold performCommand at h
  split at h
  · next i hd =>
    by_cases hi : i = .gen
    · subst hi
      by_cases he : s.phase = .empty
      · refine .inr (.inr ⟨he, hd, ?_⟩)
        simpa [exec, execGen, unlessFaulted, he] using h.symm
      · obtain ⟨err, hx, hf⟩ := execGen_of_not_empty he
        have h' : execGen s = .next t := h
        rw [hx] at h'
        exact .inl ⟨err, 0, (Host.Outcome.next.inj h').symm, fun e => ⟨rfl, hf.1 e⟩⟩
    · rcases exec_read_cases i s hi with ⟨err, v, hx, hf⟩ | ⟨hp, c, a, b, v, hc, hx⟩ | ⟨-, -, hx, -⟩ <;> rw [hx] at h
      · exact .inl ⟨err, v, (Host.Outcome.next.inj h).symm, hf⟩
      · exact .inr (.inl ⟨hp, c, a, b, v, hc, (Host.Outcome.next.inj h).symm⟩)
      · simp at h
  · by_cases hf : s.phase = .fault
    · rw [illegalCommand, unlessFaulted_of_fault hf] at h
      exact .inl ⟨true, 0, (Host.Outcome.next.inj h).symm, fun _ => ⟨rfl, hf⟩⟩
    · rw [illegalCommand, unlessFaulted_of_serving hf] at h
      exact .inr (.inl ⟨hf, .illegalCmd, _, _, _, by simp, (Host.Outcome.next.inj h).symm⟩)

/-- Everything a clock edge without reset can do. -/
theorem handshake_cases (i : PortInputs) (s : State) :
    (s.port = .closed ∧ handshake i s = { s with port := .ready }) ∨
      (s.port = .ready ∧ i.reqValid = true ∧
        handshake i s = { s with port := .accepted, request := sample s.cfg i.cmd i.opa i.opb }) ∨
      (∃ r, s.port = .answering r ∧ i.rspReady = true ∧
        handshake i s = { s with port := .ready, received := s.received ++ [r] }) ∨
      handshake i s = s := by
  unfold handshake
  split
  · next h => exact .inl ⟨h, rfl⟩
  · next h =>
    split
    · next hv => exact .inr (.inl ⟨h, hv, rfl⟩)
    · exact .inr (.inr (.inr rfl))
  · exact .inr (.inr (.inr rfl))
  · next r h =>
    split
    · next hv => exact .inr (.inr (.inl ⟨r, h, hv, rfl⟩))
    · exact .inr (.inr (.inr rfl))

/-! ### What a fill leaves of the LUT's invariant -/

theorem FillRunning.lutInv {s₀ s : State} {c : Cursor} (h : FillRunning s₀ c s) (hg : generating s₀ = true) :
    s.LutInv := by
  obtain ⟨g1, g2, g3⟩ := (generating_iff _).1 hg
  have hr := h.row
  have hc := h.col
  obtain ⟨lut, draws, rfl, hF, -⟩ := h.state
  refine ⟨hF.wf, hF.inside, hF.element, fun hd => ?_, fun _ hn => ?_, fun c' hc' => ?_⟩
  · have : s₀.phase = .done := hd
    simp [g2] at this
  · have : (some c : Option Cursor) = none := hn
    simp at this
  · obtain rfl : c = c' := Option.some.inj hc'
    exact ⟨hg, hr, hc, hF.listed⟩

theorem FillDone.lutInv {s₀ s : State} (h : FillDone s₀ s) : s.LutInv := by
  obtain ⟨lut, draws, rfl, hF, -⟩ := h
  exact ⟨hF.wf, hF.inside, hF.element, fun _ i j hi hj => (hF.listed i j hi hj).2 trivial, fun h => by simp at h,
    fun c h => by simp at h⟩

theorem FillFault.lutInv {s₀ s : State} (h : FillFault s₀ s) : s.LutInv := by
  obtain ⟨i, j, -, -, -, -, -, rfl⟩ := h
  exact ⟨rfl, by simp, by simp [lutRead], fun h => by simp at h, fun h => by simp at h, fun c h => by simp at h⟩

/-- An empty LUT out of DONE, with no fill begun. -/
theorem lutInv_of_nil {s : State} (hl : s.lut = []) (hf : s.fill = none) (hp : s.phase ≠ .done) : s.LutInv := by
  refine ⟨by rw [hl]; rfl, by simp [hl], by simp [lutRead, hl], fun h => absurd h hp, fun _ _ => hl, by simp [hf]⟩

/-- With no fill begun, the invariant looks only at the parameters, the LUT and PHASE, and entering FAULT keeps it. -/
theorem lutInv_frame {s t : State} (h : s.LutInv) (hc : t.cfg = s.cfg) (hl : t.lut = s.lut) (hf : t.fill = none)
    (hf' : s.fill = none) (hp : t.phase = s.phase ∨ t.phase = .fault) : t.LutInv := by
  obtain ⟨h1, h2, h3, h4, h5, h6⟩ := h
  refine ⟨by rw [hl]; exact h1, by rw [hl, hc]; exact h2, ?_, fun hd => ?_, fun he _ => ?_, by rw [hf]; simp⟩
  · unfold lutRead at *
    rw [hl, hc]
    exact h3
  · unfold lutRead at *
    rw [hl, hc]
    rcases hp with e | e
    · exact h4 (e ▸ hd)
    · simp [e] at hd
  · rcases hp with e | e
    · rw [hl]
      exact h5 (e ▸ he) hf'
    · simp [e] at he

/-! ### One step, by what is next on the schedule -/

theorem step_perform {s : State} {rest : List Turn} (hl : s.cfg.legal = true) (hp : s.port = .accepted)
    (ht : s.turns = .perform :: rest) : step s = performCommand { s with turns := rest } := by
  simp [step, hl, nextTurn, popTurn, ht, takeTurn, performTurn, hp]

theorem step_edge {s : State} {i : PortInputs} {rest : List Turn} (hl : s.cfg.legal = true)
    (ht : s.turns = .edge i :: rest) : step s = .next (clockEdge i { s with turns := rest }) := by
  simp [step, hl, nextTurn, popTurn, ht, takeTurn]

theorem step_cell {s : State} {rest : List Turn} (hl : s.cfg.legal = true) (ht : s.turns = .cell :: rest) :
    step s = .next (cellTurn { s with turns := rest }) := by
  simp [step, hl, nextTurn, popTurn, ht, takeTurn]

theorem generating_of_port_ne {s : State} (h : s.port ≠ .accepted) : generating s = false := by
  cases hg : generating s with
  | false => rfl
  | true => exact absurd ((generating_iff s).1 hg).1 h

theorem cellTurn_turns (s : State) (ts : List Turn) :
    cellTurn { s with turns := ts } = { cellTurn s with turns := ts } := by
  unfold cellTurn
  rw [show generating { s with turns := ts } = generating s from rfl]
  split
  · rw [genStart_turns, genCell_turns]
  · rfl

theorem cellTurn_frame (s : State) :
    (cellTurn s).cfg = s.cfg ∧ (cellTurn s).request = s.request ∧ (cellTurn s).turns = s.turns ∧
      (cellTurn s).received = s.received := by
  unfold cellTurn
  split
  · have h1 := genCell_frame (genStart s)
    have h2 := genStart_frame s
    exact ⟨h1.1.trans h2.1, h1.2.1.trans h2.2.1, h1.2.2.1.trans h2.2.2.1, h1.2.2.2.trans h2.2.2.2.1⟩
  · simp

/-! ### Runs -/

theorem run_zero (s : State) : core.run 0 s = .next s := rfl

/-- A run's first step, for any machine of the host's interface. -/
theorem run_succ_of_step (M : Host.Core) {s t : M.State} (h : M.step s = .next t) (n : Nat) :
    M.run (n + 1) s = M.run n t := by
  simp only [Host.Core.run, h]

/-- A run's first step. -/
theorem run_succ {s t : State} (h : step s = .next t) (n : Nat) : core.run (n + 1) s = core.run n t :=
  run_succ_of_step core h n

/-- A scheduled row of cell turns is that many cell turns, and the schedule behind it is left. -/
theorem run_cell_turns (k : Nat) {s : State} (hl : s.cfg.legal = true) (rest : List Turn) :
    core.run k { s with turns := List.replicate k .cell ++ rest } = .next { cellTurn^[k] s with turns := rest } := by
  induction k generalizing s with
  | zero => rfl
  | succ k ih =>
    have hs : step { s with turns := List.replicate (k + 1) .cell ++ rest } =
        .next (cellTurn { s with turns := List.replicate k .cell ++ rest }) :=
      step_cell hl (by simp [List.replicate_succ])
    rw [cellTurn_turns] at hs
    exact (run_succ hs k).trans (ih (by rw [(cellTurn_frame s).1]; exact hl))

end Sys2Proof.Machine
end

