-- ==== Sys2Proof/Tests/Slice0.lean ====
section
/-! SUPPORT. The model's own tests. The expected values are the spec's: the example encodings of 30_encoding.md R72, the
vectors of 95_test_vectors.md (their names stand in the docstrings), and the formats of R57. The second half shows, for
every statement that has hypotheses, a concrete state and operands that meet them. -/

namespace Sys2Proof.Tests

open Sys2Proof Sys2Proof.Machine

/-! ### Small states -/

/-- An instance with the range check on, TRUNCATE. -/
def inst (n m tw w : Nat) : Params :=
  { N := n, M := m, TW := tw, W := w, rangeCheck := true, overflow := .truncate }

/-- An instance with the range check off. -/
def unchecked (n m tw : Nat) (o : OverflowMode) : Params :=
  { N := n, M := m, TW := tw, W := 64, rangeCheck := false, overflow := o }

/-- The state with a command accepted, to be performed next. -/
def withCommand (s : State) (cmd : BitVec 16) (a b : Word) : State :=
  { s with port := .accepted, request := { cmd := cmd, opa := a, opb := b }, turns := [.perform] }

/-- A command accepted right after reset. -/
def fresh (p : Params) (cmd : BitVec 16) (a b : Word) : State := withCommand (State.resetOf p) cmd a b

/-- A command accepted in FAULT, after an illegal word 0x00B5. -/
def faulty (p : Params) (cmd : BitVec 16) (a b : Word) : State :=
  withCommand { State.resetOf p with phase := .fault, cause := .illegalCmd, fcmd := 0x00B5 } cmd a b

/-- After GEN. -/
def filled (p : Params) : State := genCells p.cells (genStart (fresh p 0x0003 0 0))

/-- A command accepted after GEN. -/
def done (p : Params) (cmd : BitVec 16) (a b : Word) : State := withCommand (filled p) cmd a b

/-- The next turn is a clock edge. -/
def atEdge (s : State) (i : PortInputs) : State := { s with turns := [.edge i] }

/-- The outcome is a next state of which `p` holds. -/
def nextIs (o : Machine.Outcome) (p : State → Bool) : Bool :=
  match o with
  | .next t => p t
  | _ => false

/-- The outcome is a next state with this response pending, in this phase, with this cause. -/
def answers (o : Machine.Outcome) (err : Bool) (data : Word) (ph : Phase) (c : Cause) : Bool :=
  nextIs o fun t => t.port = .answering { err := err, data := data } && t.phase = ph && t.cause = c

/-- The elements of a LUT in the order of their positions. -/
def elements (s : State) : List Nat := s.lut.map fun e => e.2.toNat

/-! ### Well-formedness: each check refuses an ill-formed term -/

theorem test_wellFormed_refuses_reserved_sel : (Instr.rdr 11).wellFormed = false ∧ (Instr.rdr 63).wellFormed = false := by
  decide

theorem test_wellFormed_accepts_bounds :
    (Instr.rdr 10).wellFormed = true ∧ (Instr.ilv 63).wellFormed = true ∧ (Instr.val 63).wellFormed = true := by decide

/-- S6: zero sizes; and each other item of R20 broken alone. -/
theorem test_legal_refuses :
    (inst 0 4 8 64).legal = false ∧ (inst 4 0 8 64).legal = false ∧ (inst 4 4 8 15).legal = false ∧
      (inst 4 4 8 65).legal = false ∧ (inst 4 4 0 64).legal = false ∧ (inst 4 4 65 64).legal = false ∧
      (inst 257 1 8 16).legal = false ∧ (inst 256 1 8 16).legal = true := by decide +kernel

/-! ### Decoding: words written out bit by bit from R57, as RSV, HS, OP -/

theorem test_decode_ilv : decode (0b000000#6 ++ 0b000101#6 ++ 0b0001#4) = .instr (.ilv 5) := by decide
theorem test_decode_val : decode (0b000000#6 ++ 0b111111#6 ++ 0b0010#4) = .instr (.val 63) := by decide
theorem test_decode_gen : decode (0b000000#6 ++ 0b000000#6 ++ 0b0011#4) = .instr .gen := by decide
theorem test_decode_rdl : decode (0b000000#6 ++ 0b000000#6 ++ 0b0100#4) = .instr .rdl := by decide
theorem test_decode_rdr : decode (0b000000#6 ++ 0b001010#6 ++ 0b0101#4) = .instr (.rdr 10) := by decide

/-- R64: each kind of reserved word; RSV is looked at before OP, and HS = 1 spoils GEN and RDL. -/
theorem test_decode_illegal :
    decode (0b000000#6 ++ 0b000000#6 ++ 0b0110#4) = .illegal .reservedOpcode ∧
      decode (0b000000#6 ++ 0b000000#6 ++ 0b1111#4) = .illegal .reservedOpcode ∧
      decode (0b100000#6 ++ 0b000000#6 ++ 0b0101#4) = .illegal .reservedBits ∧
      decode (0b000000#6 ++ 0b000001#6 ++ 0b0100#4) = .illegal .nonzeroHs ∧
      decode (0b000000#6 ++ 0b001011#6 ++ 0b0101#4) = .illegal .reservedRegister := by decide

theorem test_decodeTableWord :
    decodeTableWord 16 0x0051 = some (.ilv 5) ∧ decodeTableWord 16 0x0045 = some (.rdr 4) ∧
      decodeTableWord 16 0x0013 = none := by decide

/-! ### One command at a time -/

/-- V-ILV-18. -/
theorem test_ilv_mixed : answers (step (fresh Params.reference 0x0051 5 3)) false 54 .empty .none = true := by
  decide +kernel

/-- V-FAULT-5: W = 32, h = 40. -/
theorem test_ilv_hob_range :
    nextIs (step (fresh (inst 8 8 8 32) 0x0281 1 0)) (fun t =>
      t.cause = .hobRange && t.fa = 1 && t.fb = 0 && t.fval = 40 && t.fcmd = 0x0281) = true := by decide +kernel

/-- V-VAL-10. -/
theorem test_val_cell : answers (step (fresh Params.reference 0x0032 2 1)) false 11 .empty .none = true := by
  decide +kernel

/-- V-FAULT-7: W = 32, h = 31 is legal. -/
theorem test_val_top : answers (step (fresh (inst 4 4 8 32) 0x01F2 0 1)) false 0x80000000 .empty .none = true := by
  decide +kernel

/-- S4: the 8×8 matrix. -/
theorem test_gen_8x8 :
    nextIs (step (fresh (inst 8 8 8 64) 0x0003 0 0)) (fun t => t.phase = .done && elements t =
      [0, 32, 8, 40, 2, 34, 10, 42, 48, 16, 56, 24, 50, 18, 58, 26] ++
      [12, 44, 4, 36, 14, 46, 6, 38, 60, 28, 52, 20, 62, 30, 54, 22] ++
      [3, 35, 11, 43, 1, 33, 9, 41, 51, 19, 59, 27, 49, 17, 57, 25] ++
      [15, 47, 7, 39, 13, 45, 5, 37, 63, 31, 55, 23, 61, 29, 53, 21]) = true := by decide +kernel

/-- V-GEN-13: the check off, TW = 3. -/
theorem test_gen_truncates :
    nextIs (step (fresh (unchecked 4 4 3 .truncate) 0x0003 0 0)) (fun t => t.phase = .done && elements t =
      [0, 0, 2, 2, 4, 4, 6, 6, 3, 3, 1, 1, 7, 7, 5, 5]) = true := by decide +kernel

/-- V-RDL-2. -/
theorem test_rdl_cell : answers (step (done Params.reference 0x0004 1 2)) false 14 .done .none = true := by
  decide +kernel

/-- V-RDL-7: no wrap. -/
theorem test_rdl_no_wrap :
    nextIs (step (done Params.reference 0x0004 0xFFFFFFFFFFFFFFFF 0)) (fun t =>
      t.cause = .badIndex && t.fa = 0xFFFFFFFFFFFFFFFF && t.fb = 0 && t.fval = 0) = true := by decide +kernel

/-- V-RDR-13 and V-FAULT-12: STATUS in FAULT, and an illegal RDR in FAULT. -/
theorem test_rdr_status_in_fault :
    answers (step (faulty Params.reference 0x0005 0 0)) false 0x22 .fault .illegalCmd = true ∧
      answers (step (faulty Params.reference 0x00B5 0 0)) true 0 .fault .illegalCmd = true := by decide +kernel

/-- V-RDR-14 and V-RDR-10. -/
theorem test_rdr_constants :
    answers (step (fresh (inst 8 8 8 64) 0x0045 0 0)) false 5 .empty .none = true ∧
      answers (step (fresh (unchecked 4 4 3 .any) 0x0065 0 0)) false 2 .empty .none = true := by decide +kernel

/-- V-FAULT-8: decode comes before HOB_RANGE. -/
theorem test_illegal_word_first :
    nextIs (step (fresh (inst 4 4 8 32) 0x0681 7 9)) (fun t =>
      t.cause = .illegalCmd && t.fcmd = 0x0681 && t.fa = 7 && t.fb = 9 && t.fval = 0) = true := by decide +kernel

/-- V-RESET-2: a GEN after three cell steps, then rst = 1. -/
theorem test_reset_abandons_gen :
    nextIs (step (atEdge (genCells 3 (genStart (fresh Params.reference 0x0003 0 0)))
        { PortInputs.idle with rst := true, reqValid := true, rspReady := true })) (fun t =>
      t.phase = .empty && t.lut = [] && t.port = .closed && t.received = []) = true := by decide +kernel

/-- R70, R71: comments, tabs and hexadecimal; a pseudo-command; what an assembler refuses; a listing. -/
theorem test_assembler_text :
    assembleText 64 none "RDR FAULT_VAL ; x, y" = some ⟨0x00A5, 0, 0⟩ ∧
      assembleText 64 none "VAL  63,0,0x1F" = some ⟨0x03F2, 0, 31⟩ ∧
      assembleText 64 (some 3) "VALG 1, 0" = some ⟨0x0032, 1, 0⟩ ∧ assembleText 64 none "VALG 1, 0" = none ∧
      assembleText 64 none "ILV 64, 0, 0" = none ∧ assembleText 16 none "ILV 1, 65536, 0" = none ∧
      listing ⟨0x0004, 3, 2⟩ = "0x0004 0x3 0x2".toList := by decide +kernel

/-- What the host asks of withFetchWord: the very next step from reset runs the word. -/
theorem test_withFetchWord_from_reset :
    answers (step (State.reset.withFetchWord 16 0x0003)) false 0 .done .none = true ∧
      answers (step (State.reset.withFetchWord 16 0x0045)) false 3 .empty .none = true := by decide +kernel

/-! ### Witnesses: for each statement with hypotheses, states and operands that meet all of them together -/

theorem allFit_of {p : Params} (h : ∀ i, i < p.N → ∀ j, j < p.M → (wideValue p i j).toNat < 2 ^ p.TW) : allFit p :=
  fun i j hi hj => h i hi j hj

/-- The LUT's invariant of a freshly accepted command. -/
theorem fresh_lutInv (p : Params) (cmd : BitVec 16) (a b : Word) : (fresh p cmd a b).LutInv :=
  lutInv_of_nil rfl rfl (by simp [fresh, withCommand, State.resetOf])

/-- The LUT's invariant after a GEN that completes. -/
theorem filled_lutInv {p : Params} (hl : p.legal = true) : (filled p).LutInv := by
  rcases genCells_ends (genStart_running (s := fresh p 0x0003 0 0) hl rfl) with h | h
  · exact h.lutInv
  · exact h.lutInv

/-- The LUT's invariant with a command accepted after a GEN. -/
theorem done_lutInv {p : Params} (hl : p.legal = true) (hf : (filled p).fill = none) (cmd : BitVec 16) (a b : Word) :
    (done p cmd a b).LutInv :=
  lutInv_frame (filled_lutInv hl) rfl rfl hf hf (.inl rfl)

/-- The LUT's invariant in the middle of a GEN, after three cells. -/
theorem midway_lutInv : (genCells 3 (genStart (fresh Params.reference 0x0003 0 0))).LutInv := by
  rcases genCells_progress (genStart_running (s := fresh Params.reference 0x0003 0 0) rfl rfl) 3 with ⟨c, -, h⟩ | h | h
  · exact h.lutInv (by decide)
  · exact h.lutInv
  · exact h.lutInv

/-- For ClogIsLeastExponent. R13's examples, at the boundary x = 1 among them. -/
theorem witness_clog : clog2 1 = 0 ∧ clog2 2 = 1 ∧ clog2 3 = 2 ∧ clog2 4 = 2 := by decide

/-- For HobDerivation. R90's table: the ends of its rows, and legal parameters. -/
theorem witness_hob :
    ((1 : Nat) ≤ 1 ∧ clog2 1 = 0) ∧ (2 ^ (3 - 1) < 5 ∧ 5 ≤ 2 ^ 3 ∧ clog2 5 = 3) ∧ (8 ≤ 2 ^ 3 ∧ clog2 8 = 3) ∧
      Params.reference.legal = true ∧ State.reset.cfg.legal = true := by decide

/-- For ElaborationCheck. -/
theorem witness_elaboration :
    Params.reference.legal = true ∧ (inst 0 4 8 64).legal = false := by decide

/-- For ParametersAreConstant. -/
theorem witness_parametersAreConstant :
    (∃ t, step (fresh Params.reference 0x0003 0 0) = .next t) ∧ (State.resetOf (inst 0 4 8 64)).cfg.legal = false :=
  ⟨⟨_, rfl⟩, by decide⟩

/-- For DecodeAndEncodeAgree. -/
theorem witness_decodeAndEncodeAgree :
    (Instr.rdr 10).wellFormed = true ∧ decode 0x03F1 = .instr (.ilv 63) := by decide

/-- For OpcodeMap. Two commands of one row, whose words both rows fit. -/
theorem witness_opcodeMap :
    (Instr.rdr 10).wellFormed = true ∧ (opcodeRow (.rdr 10)).fits 0x0045 = true ∧
      (opcodeRow (.rdr 0)).fits 0x0045 = true ∧ (opcodeRow .gen).fits 0x0003 = true := by decide

/-- For AssembledLinesDecode. The largest operands, h and sel. -/
theorem witness_assembledLines :
    ((64 : Nat) ≤ 64 ∧ (63 : Nat) ≤ 63 ∧ 2 ^ 64 - 1 < 2 ^ 64 ∧ 0 < 2 ^ 64) ∧ (10 : Nat) ≤ 10 := by decide

/-- For StepRunsDecodedCommand. -/
theorem witness_stepRunsDecodedCommand :
    let s := fresh Params.reference 0x0051 1 0;
    (s.cfg.legal = true ∧ s.port = .accepted ∧ decode s.request.cmd = .instr (.ilv 5) ∧ s.turns = .perform :: []) ∧
      (let s' := { s with turns := [] };
        s'.cfg.legal = true ∧ s'.port = .accepted ∧ decode s'.request.cmd = .instr (.ilv 5) ∧ s'.turns = []) := by decide

/-- For PlacedWordRunsNext. -/
theorem witness_placedWord :
    State.reset.cfg.legal = true ∧ 0x00A5 < 2 ^ 16 ∧ decodeTableWord 16 0x00A5 = some (.rdr 10) := by decide

/-- For IllegalWordFaults. -/
theorem witness_illegalWord :
    (let s := fresh Params.reference 0x0000 7 9;
      s.cfg.legal = true ∧ s.port = .accepted ∧ s.turns = .perform :: [] ∧
        decode s.request.cmd = .illegal .reservedOpcode ∧ s.phase ≠ .fault) ∧
      (let s := faulty Params.reference 0x00B5 0 0;
        s.cfg.legal = true ∧ s.port = .accepted ∧ s.turns = .perform :: [] ∧
          decode s.request.cmd = .illegal .reservedRegister ∧ s.phase = .fault) := by decide

/-- For InterleaverClosedForm. h at its largest, and every kind of output bit: above h, from a, from b. -/
theorem witness_interleaverClosedForm :
    (63 : Nat) < 64 ∧ (bitInterleave 1 0 63).getLsbD 63 = true ∧ (bitInterleave 0 1 63).getLsbD 62 = true ∧
      (bitInterleave 3 3 1).getLsbD 2 = false := by decide

/-- For InterleaverProperties. h at its largest and y the largest value; operands that differ only in bits that are not
read. -/
theorem witness_interleaverProperties :
    (63 : Nat) < 64 ∧ (BitVec.allOnes 64 : Word).toNat < 2 ^ (63 + 1) ∧
      bitInterleave (BitVec.ofNat 64 (2 ^ 32 - 1)) (BitVec.ofNat 64 (2 ^ 32 - 1)) 63 = BitVec.allOnes 64 ∧
      (State.reset.phase ≠ .fault ∧ 63 < State.reset.cfg.W) ∧
      bitInterleave 0x100000000 0 63 = bitInterleave 0 0 63 := by decide +kernel

/-- For MapperProperties. -/
theorem witness_mapperProperties :
    (63 : Nat) < 64 ∧ 1 ≤ 32 ∧ 63 = 2 * 32 - 1 ∧ (BitVec.allOnes 64 : Word).toNat < 4 ^ 32 ∧
      valueAt (BitVec.ofNat 64 (2 ^ 32 - 1)) 0 63 = BitVec.allOnes 64 := by decide +kernel

/-- For IlvBehaviour. Each clause: h = W − 1 with all ones, h = 0, zero and equal operands, R80's example, bits not read, h = W, and
FAULT. -/
theorem witness_ilv :
    (let s := fresh (inst 4 4 8 16) 0 0xFFFF 0xFFFF;
      s.phase ≠ .fault ∧ (15 : BitVec 6).toNat < s.cfg.W ∧ (15 : BitVec 6).toNat + 1 = s.cfg.W ∧
        s.request.opa.toNat = 2 ^ s.cfg.W - 1 ∧ s.request.opb.toNat = 2 ^ s.cfg.W - 1 ∧ s.request.opa = s.request.opb ∧
        (0 : BitVec 6).toNat < s.cfg.W ∧ s.cfg.W ≤ (16 : BitVec 6).toNat) ∧
      (let s := fresh Params.reference 0 1 1;
        s.phase ≠ .fault ∧ (3 : BitVec 6).toNat < s.cfg.W ∧ s.request.opa = 1 ∧ s.request.opb = 1) ∧
      (let s := fresh Params.reference 0 0 0;
      let s' := fresh Params.reference 0 4 2;
      s.request.opa = 0 ∧ s.request.opb = 0 ∧ s'.phase ≠ .fault ∧ (2 : BitVec 6).toNat < s'.cfg.W ∧
        (∀ k, k ≤ (2 : BitVec 6).toNat / 2 → s.request.opa.getLsbD k = s'.request.opa.getLsbD k) ∧
        (∀ k, k ≤ 0 → s.request.opb.getLsbD k = s'.request.opb.getLsbD k)) ∧
      (faulty Params.reference 0 0 0).phase = .fault ∧ rsvField 0x0401 ≠ 0 := by decide

/-- For ValBehaviour. The clauses as for ILV, and two states whose operands differ only in bits VAL does not read. -/
theorem witness_val :
    (let s := fresh (inst 4 4 8 16) 0 5 5;
      s.phase ≠ .fault ∧ (15 : BitVec 6).toNat < s.cfg.W ∧ s.request.opa = s.request.opb ∧
        (0 : BitVec 6).toNat < s.cfg.W ∧ s.cfg.W ≤ (16 : BitVec 6).toNat) ∧
      (let s := fresh Params.reference 0 1 0;
        s.phase ≠ .fault ∧ (3 : BitVec 6).toNat < s.cfg.W ∧ s.request.opa = 1 ∧ s.request.opb = 0) ∧
      (let s := fresh Params.reference 0 0 4;
        let s' := fresh Params.reference 0 8 0;
        s.request.opa = 0 ∧ s'.phase ≠ .fault ∧ (3 : BitVec 6).toNat < s'.cfg.W ∧
          (∀ k, k ≤ (3 : BitVec 6).toNat / 2 → s.request.opa.getLsbD k = s'.request.opa.getLsbD k) ∧
          (∀ k, k ≤ (3 : BitVec 6).toNat / 2 → s.request.opb.getLsbD k = s'.request.opb.getLsbD k)) ∧
      (faulty Params.reference 0 0 0).phase = .fault := by decide

/-- For InterleaveCommandsOnlyHobRange. -/
theorem witness_onlyHobRange :
    (fresh (inst 4 4 8 16) 0 0 0).phase ≠ .fault ∧
      (∃ t, exec (.ilv 16) (fresh (inst 4 4 8 16) 0 0 0) = .next t ∧ t.phase = .fault) ∧
      (∃ t, exec (.val 15) (fresh (inst 4 4 8 16) 0 0 0) = .next t ∧ t.phase ≠ .fault) := by
  exact ⟨by decide, ⟨_, rfl, by decide⟩, ⟨_, rfl, by decide⟩⟩

/-- For GenFillsTheMatrix. With the check on and every value fitting, with TW exactly 2·B; with the check off and
values that do not fit. -/
theorem witness_genFills :
    (let s := fresh (inst 4 4 4 64) 0x0003 0 0;
      s.cfg.legal = true ∧ s.phase = .empty ∧ s.fill = none ∧ (s.cfg.rangeCheck = true → allFit s.cfg)) ∧
      (let s := fresh (unchecked 4 4 3 .any) 0x0003 0 0;
        s.cfg.legal = true ∧ s.phase = .empty ∧ s.fill = none ∧ (s.cfg.rangeCheck = true → allFit s.cfg)) := by
  exact ⟨⟨by decide, rfl, rfl, fun _ => allFit_of (by decide +kernel)⟩, by decide, rfl, rfl,
    fun h => by simp [fresh, withCommand, State.resetOf, unchecked] at h⟩

/-- V-GEN-15: under ANY the cells whose value fits are exact. -/
theorem witness_genFills_any :
    nextIs (exec .gen (fresh (unchecked 4 4 3 .any) 0x0003 0 0)) (fun t =>
      t.phase = .done && lutRead t 0 2 = some 2 && lutRead t 1 1 = some 4 && lutRead t 3 1 = some 7 && t.draws = 8) =
      true := by decide +kernel

/-- For GenRangeFaultAtFirstCell. V-GEN-10: the first misfit of an 8×8 matrix of 4-bit elements is at (0, 1), after (0,
0). -/
theorem witness_genRangeFault :
    let s := fresh (inst 8 8 4 64) 0x0003 0 0;
    s.cfg.legal = true ∧ s.phase = .empty ∧ s.fill = none ∧ s.cfg.rangeCheck = true ∧ 0 < s.cfg.N ∧ 1 < s.cfg.M ∧
      2 ^ s.cfg.TW ≤ (wideValue s.cfg 0 1).toNat ∧
      ∀ i' j', i' < s.cfg.N → j' < s.cfg.M → visitedBefore i' j' 0 1 →
        (wideValue s.cfg i' j').toNat < 2 ^ s.cfg.TW := by
  refine ⟨by decide, rfl, rfl, rfl, by decide, by decide, by decide +kernel, fun i' j' _ _ hb => ?_⟩
  obtain ⟨rfl, rfl⟩ : i' = 0 ∧ j' = 0 := by unfold visitedBefore at hb; omega
  decide +kernel

/-- For GenInDoneWritesNothing. -/
theorem witness_genInDone : (done Params.reference 0x0003 0 0).phase = .done := by decide +kernel

/-- For GenAllOrNothing. A GEN that completes and one that faults. -/
theorem witness_genAllOrNothing :
    (let s := fresh Params.reference 0x0003 0 0;
      s.cfg.legal = true ∧ s.phase = .empty ∧ s.LutInv) ∧
      (let s := fresh (inst 8 8 4 64) 0x0003 0 0;
        s.cfg.legal = true ∧ s.phase = .empty ∧ s.LutInv) :=
  ⟨⟨by decide, rfl, fresh_lutInv _ _ _ _⟩, by decide, rfl, fresh_lutInv _ _ _ _⟩

/-- For CellStepsRefineAtomicGen, GenAnswersWithinItsCells, OutputsFollowTheState. A GEN just accepted, and one in the
middle of its fill. -/
theorem witness_generating :
    (let s := fresh Params.reference 0x0003 0 0;
      s.cfg.legal = true ∧ s.LutInv ∧ generating s = true) ∧
      (let s := genCells 3 (genStart (fresh Params.reference 0x0003 0 0));
        s.cfg.legal = true ∧ s.LutInv ∧ generating s = true ∧ s.fill = some { row := 0, col := 3 }) :=
  ⟨⟨by decide, fresh_lutInv _ _ _ _, by decide⟩, by decide, midway_lutInv, by decide, by decide +kernel⟩

/-- For GenCompletesExactlyWhenValuesFit. TW at 2·B and below it, at B = 1 and at B = 3; 3×3 and 1×2. -/
theorem witness_genCompletesExactly :
    (let s := fresh (inst 2 2 2 64) 0x0003 0 0;
      s.cfg.legal = true ∧ s.phase = .empty ∧ s.fill = none ∧ s.cfg.rangeCheck = true ∧ (1 : Nat) ≤ 1 ∧
        s.cfg.N = 2 ^ 1 ∧ s.cfg.M = 2 ^ 1 ∧ 2 * 1 ≤ s.cfg.TW) ∧
      (let s := fresh (inst 8 8 5 64) 0x0003 0 0;
      s.cfg.legal = true ∧ s.phase = .empty ∧ s.fill = none ∧ s.cfg.rangeCheck = true ∧ s.cfg.N = 2 ^ 3 ∧
        s.cfg.M = 2 ^ 3 ∧ ¬ 2 * 3 ≤ s.cfg.TW) ∧
      (let s := fresh (inst 3 3 3 64) 0x0003 0 0;
      s.cfg.legal = true ∧ s.phase = .empty ∧ s.fill = none ∧ s.cfg.rangeCheck = true ∧ s.cfg.N = 3 ∧ s.cfg.M = 3) ∧
      (let s := fresh (inst 1 2 1 64) 0x0003 0 0;
      s.cfg.legal = true ∧ s.phase = .empty ∧ s.fill = none ∧ s.cfg.rangeCheck = true ∧ s.cfg.N = 1 ∧
        s.cfg.M = 2) := by decide

/-- For NarrowTypeScenario. -/
theorem witness_narrowType :
    let s := fresh (inst 8 8 4 16) 0x0003 0 0;
    s.cfg.legal = true ∧ s.cfg.N = 8 ∧ s.cfg.M = 8 ∧ s.cfg.TW = 4 ∧ s.cfg.rangeCheck = true ∧ s.phase = .empty ∧
      s.fill = none := by decide

/-- For SquareMatrixIsPermutation. B = 1 with TW at its least, and B = 0. -/
theorem witness_permutation :
    (let s := fresh (inst 2 2 2 64) 0x0003 0 0;
      s.cfg.legal = true ∧ s.phase = .empty ∧ s.fill = none ∧ s.cfg.N = 2 ^ 1 ∧ s.cfg.M = 2 ^ 1 ∧ 2 * 1 ≤ s.cfg.TW ∧
        ∃ t, exec .gen s = .next t) ∧
      (let s := fresh (inst 1 1 1 64) 0x0003 0 0;
        s.cfg.legal = true ∧ s.phase = .empty ∧ s.fill = none ∧ s.cfg.N = 2 ^ 0 ∧ s.cfg.M = 2 ^ 0 ∧ 2 * 0 ≤ s.cfg.TW ∧
          ∃ t, exec .gen s = .next t) :=
  ⟨⟨by decide, rfl, rfl, rfl, rfl, by decide, _, rfl⟩, by decide, rfl, rfl, rfl, rfl, by decide, _, rfl⟩

/-- For PermutationLimits. -/
theorem witness_permutationLimits :
    ((inst 4 4 4 64).legal = true ∧ (inst 4 4 4 64).N = 2 ^ 2 ∧ (inst 4 4 4 64).M = 2 ^ 2) ∧
      ((inst 1 1 1 64).legal = true ∧ (inst 1 1 1 64).N = 2 ^ 0 ∧ (inst 1 1 1 64).M = 2 ^ 0) ∧
      ((inst 1 2 8 64).N = 1 ∧ (inst 1 2 8 64).M = 2) ∧ (inst 3 3 8 64).N = 3 ∧ (inst 3 3 8 64).M = 3 := by decide

/-- For ValuesDistinctAndContained. R101's three examples, and two cells of one value only when they are one. -/
theorem witness_valuesDistinct :
    ((inst 2 4 8 64).legal = true ∧ (inst 2 4 8 64).N = 2 ∧ (inst 2 4 8 64).M = 4) ∧
      ((inst 4 2 8 64).legal = true ∧ (inst 4 2 8 64).N = 4 ∧ (inst 4 2 8 64).M = 2) ∧
      ((inst 3 3 8 64).legal = true ∧ (inst 3 3 8 64).N = 3 ∧ (inst 3 3 8 64).M = 3) ∧
      (2 < (inst 3 3 8 64).N ∧ 2 < (inst 3 3 8 64).M ∧
        wideValue (inst 3 3 8 64) 2 2 = wideValue (inst 3 3 8 64) 2 2) := by decide

/-- For SelfSimilarity. k = 1, the last cell. -/
theorem witness_selfSimilarity :
    ({ Params.reference with N := 2 * 2 ^ 1, M := 2 * 2 ^ 1 } : Params).legal = true ∧ 3 < 2 * 2 ^ 1 ∧
      (wideValue { Params.reference with N := 2 * 2 ^ 1, M := 2 * 2 ^ 1 } 3 3).toNat = 5 := by decide +kernel

/-- For GenIsDeterministic. Two instances that differ in W, RANGE_CHECK and the operands the port holds. -/
theorem witness_genDeterministic :
    let s := fresh (inst 2 2 2 64) 0x0003 0 0;
    let s' := fresh { inst 2 2 2 16 with rangeCheck := false } 0x0003 7 9;
    s.cfg.legal = true ∧ s'.cfg.legal = true ∧ s.cfg.N = s'.cfg.N ∧ s.cfg.M = s'.cfg.M ∧ s.cfg.TW = s'.cfg.TW ∧
      ((s.cfg.overflow = .truncate ∧ s'.cfg.overflow = .truncate) ∨ allFit s.cfg) ∧ s.phase = .empty ∧
      s'.phase = .empty ∧
      s.fill = none ∧ s'.fill = none ∧
      ∃ t t', exec .gen s = .next t ∧ exec .gen s' = .next t' ∧ t.phase = .done ∧ t'.phase = .done :=
  ⟨by decide, by decide, rfl, rfl, rfl, .inl ⟨rfl, rfl⟩, rfl, rfl, rfl, rfl, _, _, rfl, rfl, by decide +kernel,
    by decide +kernel⟩

/-- For RdlBehaviour. Each of RDL's outcomes: FAULT, EMPTY, r = N, c = M, and the last cell (N − 1, M − 1). -/
theorem witness_rdl :
    (faulty Params.reference 0x0004 0 0).phase = .fault ∧ (fresh Params.reference 0x0004 5 5).phase = .empty ∧
      (let s := done Params.reference 0x0004 4 0;
        s.phase = .done ∧ s.cfg.N ≤ s.request.opa.toNat) ∧
      (let s := done Params.reference 0x0004 0 4;
        s.phase = .done ∧ s.cfg.M ≤ s.request.opb.toNat) ∧
      (let s := done Params.reference 0x0004 3 3;
        s.cfg.legal = true ∧ s.phase = .done ∧ s.LutInv ∧ s.request.opa.toNat < s.cfg.N ∧
          s.request.opb.toNat < s.cfg.M) := by
  refine ⟨by decide, by decide, by decide +kernel, by decide +kernel, by decide +kernel, by decide +kernel, ?_,
    by decide +kernel, by decide +kernel⟩
  exact done_lutInv (by decide) (by decide +kernel) _ _ _

/-- For RdlAgreesWithVal. RDL against VAL where TRUNCATE is at work, and under ANY where the value fits. -/
theorem witness_rdlAgrees :
    (let s := done (unchecked 2 2 1 .truncate) 0x0004 1 0;
      s.cfg.legal = true ∧ s.LutInv ∧ s.phase = .done ∧ s.request.opa.toNat < s.cfg.N ∧
        s.request.opb.toNat < s.cfg.M ∧ s.cfg.overflow = .truncate) ∧
      (let s := done (unchecked 2 2 1 .any) 0x0004 1 1;
        s.cfg.legal = true ∧ s.LutInv ∧ s.phase = .done ∧ s.request.opa.toNat < s.cfg.N ∧
          s.request.opb.toNat < s.cfg.M ∧ (wideValue s.cfg 1 1).toNat < 2 ^ s.cfg.TW) := by
  exact ⟨⟨by decide +kernel, done_lutInv (by decide) (by decide +kernel) _ _ _,
    by decide +kernel, by decide +kernel, by decide +kernel, by decide +kernel⟩,
    by decide +kernel, done_lutInv (by decide) (by decide +kernel) _ _ _,
    by decide +kernel, by decide +kernel, by decide +kernel, by decide +kernel⟩

/-- For RdrReadsEveryRegister and RdrBehaviour. Legal parameters; sel at both sides of each of its bounds, in and out of
FAULT; the corner cases. -/
theorem witness_rdr :
    (let s := fresh (inst 8 8 8 64) 0x0075 0 0;
      s.cfg.legal = true ∧ s.FaultRecordInv ∧ s.phase ≠ .fault ∧ s.cfg.N = 8 ∧ s.cfg.M = 8 ∧
        ∃ t, step s = .next t) ∧
      (7 ≤ (7 : BitVec 6).toNat ∧ (10 : BitVec 6).toNat ≤ 10) ∧ 11 ≤ (11 : BitVec 6).toNat ∧
      (1 ≤ (1 : BitVec 6).toNat ∧ (6 : BitVec 6).toNat ≤ 6) ∧ rsvField 0x0405 ≠ 0 ∧
      (let s := faulty Params.reference 0x00B5 0 0;
      s.phase = .fault ∧ s.cause = .illegalCmd) :=
  ⟨⟨by decide, ⟨by decide, by decide⟩, by decide, rfl, rfl, _, rfl⟩, by decide, by decide, by decide, by decide, rfl, rfl⟩

/-- For ReadsChangeNothing. A command of each kind that answers. -/
theorem witness_readsChangeNothing :
    (∃ t v, Instr.val 3 ≠ .gen ∧ exec (.val 3) (fresh Params.reference 0x0032 1 0) = .next t ∧
      t.port = .answering { err := false, data := v }) ∧
      (∃ t v, Instr.rdl ≠ .gen ∧ exec .rdl (done Params.reference 0x0004 1 2) = .next t ∧
        t.port = .answering { err := false, data := v }) := by
  refine ⟨⟨_, 12, by decide, rfl, by decide⟩, ⟨(done Params.reference 0x0004 1 2).answered false 14, 14, by decide, ?_, rfl⟩⟩
  exact execRdl_of_element (by decide +kernel) (by decide +kernel) (by decide +kernel) (by decide +kernel)

/-- For FaultsArePrecise. A fault of a reading command, and a faulting GEN. -/
theorem witness_faultsArePrecise :
    (∃ t, exec .rdl (fresh Params.reference 0x0004 5 5) = .next t ∧ t.phase = .fault) ∧
      (∃ t, exec .gen (fresh (inst 8 8 4 64) 0x0003 0 0) = .next t ∧ t.phase = .fault) ∧
      (fresh Params.reference 0x0004 5 5).cfg.legal = true ∧ (fresh (inst 8 8 4 64) 0x0003 0 0).cfg.legal = true ∧
      (fresh Params.reference 0x0004 5 5).LutInv ∧ (fresh (inst 8 8 4 64) 0x0003 0 0).LutInv ∧
      (fresh Params.reference 0x0004 5 5).phase ≠ .fault ∧ (fresh (inst 8 8 4 64) 0x0003 0 0).phase ≠ .fault :=
  ⟨⟨_, rfl, by decide⟩, ⟨_, rfl, by decide +kernel⟩, by decide, by decide, fresh_lutInv _ _ _ _, fresh_lutInv _ _ _ _,
    by decide, by decide⟩

/-- For FaultPhaseRejects. In FAULT: a legal RDR, another command, and an illegal word. -/
theorem witness_faultPhaseRejects :
    let s := faulty Params.reference 0x0005 0 0;
    let s' := faulty Params.reference 0x0003 0 0;
    (s.cfg.legal = true ∧ s.phase = .fault ∧ s.port = .accepted ∧ s.turns = .perform :: [] ∧
      decode s.request.cmd = .instr (.rdr 0)) ∧
      (s'.cfg.legal = true ∧ s'.phase = .fault ∧ s'.port = .accepted ∧ s'.turns = .perform :: [] ∧
        ∀ sel, decode s'.request.cmd ≠ .instr (.rdr sel)) :=
  ⟨by decide, rfl, rfl, rfl, rfl, fun _ h => by
    have h' : Decoded.instr .gen = .instr (.rdr _) := h
    simp at h'⟩

/-- For CheckPriority. The common premises of the order of checks, in each phase. -/
theorem witness_checkPriority :
    (let s := fresh Params.reference 0x0004 5 5;
      s.cfg.legal = true ∧ s.LutInv ∧ s.port = .accepted ∧ s.turns = .perform :: [] ∧ s.phase = .empty ∧
        decode s.request.cmd = .instr .rdl) ∧
      (let s := done Params.reference 0x0004 4 4;
        s.cfg.legal = true ∧ s.LutInv ∧ s.port = .accepted ∧ s.turns = .perform :: [] ∧ s.phase = .done ∧
          decode s.request.cmd = .instr .rdl ∧ s.cfg.N ≤ s.request.opa.toNat) ∧
      (let s := fresh (inst 4 4 8 32) 0x0681 0 0;
        s.cfg.legal = true ∧ s.LutInv ∧ s.phase ≠ .fault ∧ decode s.request.cmd = .illegal .reservedBits) ∧
      (let s := fresh (inst 4 4 8 32) 0x0201 0 0;
        s.cfg.legal = true ∧ s.LutInv ∧ s.phase ≠ .fault ∧ decode s.request.cmd = .instr (.ilv 32) ∧
          s.cfg.W ≤ (32 : BitVec 6).toNat ∧ (31 : BitVec 6).toNat < s.cfg.W) ∧
      (let s := fresh (inst 8 8 4 64) 0x0003 0 0;
        s.cfg.legal = true ∧ s.LutInv ∧ s.phase = .empty ∧ decode s.request.cmd = .instr .gen ∧
          s.cfg.rangeCheck = true ∧ ¬ allFit s.cfg) := by
  refine ⟨⟨by decide, fresh_lutInv _ _ _ _, rfl, rfl, rfl, by decide⟩,
    ⟨by decide +kernel, done_lutInv (by decide) (by decide +kernel) _ _ _, rfl, rfl, by decide +kernel, by decide,
      by decide +kernel⟩,
    ⟨by decide, fresh_lutInv _ _ _ _, by decide, by decide⟩,
    ⟨by decide, fresh_lutInv _ _ _ _, by decide, by decide, by decide, by decide⟩,
    ⟨by decide, fresh_lutInv _ _ _ _, by decide, by decide, rfl, fun h => ?_⟩⟩
  have h1 := h 0 1 (by decide) (by decide)
  exact absurd h1 (by decide +kernel)

/-- For EveryCommandIsAnswered. -/
theorem witness_everyCommandAnswered :
    (let s := fresh Params.reference 0x0000 0 0;
      s.cfg.legal = true ∧ s.LutInv ∧ s.port = .accepted ∧ s.turns = .perform :: []) ∧
      (let s := done Params.reference 0x0004 3 3;
      s.cfg.legal = true ∧ s.LutInv ∧ s.port = .accepted ∧ s.turns = .perform :: []) :=
  ⟨⟨by decide, fresh_lutInv _ _ _ _, rfl, rfl⟩,
    by decide +kernel, done_lutInv (by decide) (by decide +kernel) _ _ _, rfl, rfl⟩

/-- For PhaseTransitions, FaultRecordWrittenByEntryOrReset, OnlyResetLeavesFault, ParametersAreConstant. Steps that
change PHASE: a GEN to DONE, a fault, and a reset out of FAULT; the last two also write the record. -/
theorem witness_phaseTransitions :
    (∃ t, step (fresh Params.reference 0x0003 0 0) = .next t ∧ (fresh Params.reference 0x0003 0 0).resetNext = false ∧
      t.phase = .done) ∧
      (∃ t, step (fresh Params.reference 0x0000 7 9) = .next t ∧
        (fresh Params.reference 0x0000 7 9).resetNext = false ∧ t.phase = .fault ∧ t.fa ≠ 0) ∧
      (let s := atEdge (faulty Params.reference 0 0 0) { PortInputs.idle with rst := true };
        s.phase = .fault ∧ s.resetNext = true ∧ ∃ t, step s = .next t ∧ t.phase = .empty ∧ t.cause ≠ s.cause) :=
  ⟨⟨_, rfl, by decide, by decide +kernel⟩, ⟨_, rfl, by decide, by decide, by decide⟩, rfl, by decide, _, rfl, by decide,
    by decide⟩

/-- For OnlyResetLeavesFault, LutImmutableInDone. In FAULT a step that is not a reset; in DONE likewise. -/
theorem witness_stickyAndImmutable :
    (let s := faulty Params.reference 0x0003 0 0;
      s.phase = .fault ∧ s.resetNext = false ∧ ∃ t, step s = .next t) ∧
      (let s := done Params.reference 0x0003 0 0;
        s.phase = .done ∧ s.resetNext = false ∧ ∃ t, step s = .next t) :=
  ⟨⟨rfl, by decide, _, rfl⟩, by decide +kernel, by decide, _, rfl⟩

/-- For AcceptanceSamplesTheBuses. An acceptance, a withdrawn request, an edge while req_ready = 0,
and, with a response presented, two reset edges that differ in every other input. -/
theorem witness_acceptance :
    let i : PortInputs := { PortInputs.idle with reqValid := true, cmd := 0x0003 };
    let s := atEdge { State.reset with port := .ready } i;
    (s.cfg.legal = true ∧ s.turns = .edge i :: [] ∧ i.rst = false ∧ s.outputs.reqReady = true ∧ i.reqValid = true) ∧
      (PortInputs.idle.rst = false ∧ PortInputs.idle.reqValid = false) ∧
      (atEdge (fresh Params.reference 0x0003 0 0) i).outputs.reqReady = false ∧
      (PortInputs.idle.rst = false ∧ PortInputs.idle.rspReady = i.rspReady) ∧
      (let s' := atEdge { State.reset with port := .answering { err := false, data := 12 } } i;
      let j : PortInputs := { PortInputs.idle with rst := true };
      let j' : PortInputs := { rst := true, reqValid := true, cmd := 0x0003, opa := 7, opb := 9, rspReady := true };
      s'.cfg.legal = true ∧ s'.turns = .edge i :: [] ∧ i.rst = false ∧ j.rst = true ∧ j'.rst = true ∧
        j.rspReady ≠ j'.rspReady) := by decide

/-- For ResponseHeldUntilTaken. A response held, and one taken. -/
theorem witness_responseHeld :
    let i : PortInputs := { PortInputs.idle with rspReady := true };
    let r : Response := { err := false, data := 12 };
    let s := atEdge { State.reset with port := .answering r } i;
    s.cfg.legal = true ∧ s.turns = .edge i :: [] ∧ i.rst = false ∧ s.port = .answering r ∧ i.rspReady = true ∧
      PortInputs.idle.rspReady = false ∧ s.resetNext = false := by decide

/-- For ResetRestoresTheResetState. A reset edge over a GEN in progress, with an edge without reset behind it. -/
theorem witness_reset :
    let i : PortInputs := { PortInputs.idle with rst := true };
    let s := { genCells 3 (genStart (fresh Params.reference 0x0003 0 0)) with turns := [.edge i, .edge .idle] };
    s.cfg.legal = true ∧ s.turns = .edge i :: [.edge .idle] ∧ i.rst = true ∧ generating s = true ∧
      PortInputs.idle.rst = false := by decide +kernel

/-- For ResetDuringGen. The reset edge before the first cell, after three cells, and after the last of the N·M cells, where
the GEN has answered; and after two cells of a GEN that has raised RANGE at the second. -/
theorem witness_resetDuringGen :
    let i : PortInputs := { PortInputs.idle with rst := true, rspReady := true };
    let s := fun n => { fresh Params.reference 0x0003 0 0 with turns := List.replicate n .cell ++ [.edge i] };
    let s' := { fresh (inst 8 8 4 64) 0x0003 0 0 with turns := List.replicate 2 .cell ++ [.edge i] };
    (∀ n ∈ [0, 3, 16], (s n).cfg.legal = true ∧ generating (s n) = true ∧ i.rst = true ∧
      (s n).turns = List.replicate n .cell ++ [.edge i]) ∧
      (s 16).cfg.cells = 16 ∧ (cellTurn^[16] (s 16)).port = .answering { err := false, data := 0 } ∧
      generating (cellTurn^[3] (s 3)) = true ∧
      (s'.cfg.legal = true ∧ generating s' = true ∧ s'.turns = List.replicate 2 .cell ++ [.edge i] ∧
        (cellTurn^[2] s').port = .answering { err := true, data := 0 }) := by decide +kernel

/-- For OneResponsePerCommand. Each condition of the port, and a reset. -/
theorem witness_oneResponse :
    (∃ t, step (atEdge State.reset .idle) = .next t ∧ t.port = .ready) ∧
      (∃ t, step (atEdge { State.reset with port := .ready } { PortInputs.idle with reqValid := true }) = .next t ∧
        t.port = .accepted) ∧
      (∃ t, step (fresh Params.reference 0x0005 0 0) = .next t ∧ t.port = .answering { err := false, data := 0 }) ∧
      (∃ t, step (atEdge { State.reset with port := .answering { err := true, data := 0 } }
        { PortInputs.idle with rspReady := true }) = .next t ∧ t.received = [{ err := true, data := 0 }]) ∧
      (∃ t, step (atEdge { State.reset with port := .accepted } { PortInputs.idle with rst := true }) = .next t ∧
        t.port = .closed) :=
  ⟨⟨_, rfl, rfl⟩, ⟨_, rfl, rfl⟩, ⟨_, rfl, by decide⟩, ⟨_, rfl, rfl⟩, ⟨_, rfl, rfl⟩⟩

/-- For ResetMeetsInvariants, StepKeepsFaultRecord, StepKeepsLut, StepKeepsWidths, StepKeepsErrorResponsesZero,
RunsNeverStop, InvariantStateStepsOn. A step from a state that meets every invariant: right after reset, with an edge
scheduled. -/
theorem witness_invariants :
    let s := runFrom Params.reference [.edge .idle];
    s.Inv ∧ ∃ t, step s = .next t := by
  refine ⟨⟨by decide, ⟨by decide, by decide⟩, lutInv_of_nil rfl rfl (by decide),
    ⟨by decide, by decide, ?_, ?_, ?_⟩, ?_, ?_⟩, _, rfl⟩ <;> simp [runFrom, State.resetOf]

end Sys2Proof.Tests
end

section
/-! O1: clog2 and trunc (00_scope.md R13). -/

namespace Sys2Proof

/-- No exponent below clog2 is large enough (R13). -/
theorem clog2_le_of_le_two_pow {x b : Nat} (h : x ≤ 2 ^ b) : clog2 x ≤ b := by
  by_contra hlt
  have : 2 ^ b < x := two_pow_lt_of_lt_clog2 (Nat.not_le.1 hlt)
  omega

/-- Settles O1: the search behind clog2 stops at the first exponent that is large enough. -/
theorem clogIsLeastExponent : Obligations.ClogIsLeastExponent :=
  ⟨fun x _ => ⟨le_two_pow_clog2 x, fun _ => clog2_le_of_le_two_pow⟩, truncTo_toNat⟩

end Sys2Proof
end

section
/-! O56: every step keeps values W bits wide and elements TW bits wide (00_scope.md R9, 10_state.md R26, R27, R32,
30_encoding.md R55). First the widths of what the commands compute, then what keeps `State.WidthInv`. -/

namespace Sys2Proof.Machine

/-! ### Widths of words -/

theorem zext_lt {n b : Nat} (h : n < b) : (zext n).toNat < b := by
  rw [zext, BitVec.toNat_ofNat]
  exact lt_of_le_of_lt (Nat.mod_le _ _) h

theorem setWidth_lt_two_pow {n w : Nat} (v : BitVec n) (h : n ≤ w) : (v.setWidth 64).toNat < 2 ^ w := by
  rw [BitVec.toNat_setWidth]
  calc v.toNat % 2 ^ 64 ≤ v.toNat := Nat.mod_le _ _
    _ < 2 ^ n := v.isLt
    _ ≤ 2 ^ w := Nat.pow_le_pow_right (by omega) h

/-- The interleaver sets no bit above bit h (R75). -/
theorem bitInterleave_lt (a b : Word) {h w : Nat} (hh : h < 64) (hw : h < w) :
    (bitInterleave a b h).toNat < 2 ^ w := by
  rw [toNat_lt_two_pow_iff]
  intro k hk
  rw [bitInterleave, getLsbD_interleaveFrom a b 32 0 h 0 k hh (by omega)]
  simp [show ¬ k ≤ h by omega]

theorem wideValue_lt {p : Params} (hl : p.legal = true) (i j : Nat) : (wideValue p i j).toNat < 2 ^ p.W :=
  bitInterleave_lt _ _ (Params.hob_lt_64 hl) (p.legal_iff.1 hl).2.2.2

/-- The sizes of the matrix are W-bit values (R27). -/
theorem size_lt_two_pow_W {p : Params} (hl : p.legal = true) : p.N < 2 ^ p.W ∧ p.M < 2 ^ p.W := by
  obtain ⟨hN, hM, hB⟩ := Params.legal_size hl
  obtain ⟨-, ⟨hW, -⟩, -, -⟩ := p.legal_iff.1 hl
  have : 2 ^ p.indexBits < 2 ^ p.W := Nat.pow_lt_pow_right (by omega) (by omega)
  omega

theorem flagsWord_lt (p : Params) : (flagsWord p).toNat < 2 ^ 2 := by
  unfold flagsWord
  split <;> split <;> decide

/-- Every register is W bits wide (R27). -/
theorem readRegister_lt {s : State} (hl : s.cfg.legal = true) (hw : s.WidthInv) {sel : BitVec 6} {v : Word}
    (h : readRegister s sel = some v) : v.toNat < 2 ^ s.cfg.W := by
  obtain ⟨-, ⟨hW, -⟩, ⟨-, hTW⟩, hhob⟩ := s.cfg.legal_iff.1 hl
  obtain ⟨hN, hM⟩ := size_lt_two_pow_W hl
  obtain ⟨⟨hfa, hfb, hfval⟩, -⟩ := hw
  have hlt : s.cfg.W < 2 ^ s.cfg.W := Nat.lt_two_pow_self
  have hflags : (flagsWord s.cfg).toNat < 2 ^ s.cfg.W :=
    lt_of_lt_of_le (flagsWord_lt _) (Nat.pow_le_pow_right (by omega) (by omega))
  unfold readRegister at h
  split at h <;> cases h
  · exact setWidth_lt_two_pow _ (by omega)
  · exact zext_lt hN
  · exact zext_lt hM
  · exact zext_lt (by omega)
  · exact zext_lt (by omega)
  · exact zext_lt hlt
  · exact hflags
  · exact setWidth_lt_two_pow _ hW
  · exact hfa
  · exact hfb
  · exact hfval

/-- Every element of a matrix being filled is TW bits wide (R32, R95). -/
theorem Filled.toNat_lt {p : Params} {upTo : Nat → Nat → Prop} {lut : Memory} (h : Filled p upTo lut) (k : Nat)
    (x : Word) (hx : Memory.read lut k = some x) : x.toNat < 2 ^ p.TW := by
  obtain ⟨i, j, hi, hj, rfl⟩ := Params.exists_cell (h.inside k x hx)
  exact (h.element i j x hi hj hx).1

/-! ### What an outcome leads to -/

/-- The next state, if the outcome is one, has the property. -/
def NextMeets (P : State → Prop) (o : Outcome) : Prop := ∀ t, o = .next t → P t

@[simp] theorem nextMeets_next (P : State → Prop) (t : State) : NextMeets P (.next t) ↔ P t :=
  ⟨fun h => h t rfl, fun h _ e => Host.Outcome.next.inj e ▸ h⟩

/-- A command that FAULT rejects need only be looked at outside FAULT (R120). -/
theorem nextMeets_unlessFaulted {P : State → Prop} {s : State} {o : Outcome} (hr : P (s.answered true 0))
    (ho : s.phase ≠ .fault → NextMeets P o) : NextMeets P (unlessFaulted s o) := by
  by_cases hf : s.phase = .fault
  · rw [unlessFaulted_of_fault hf, nextMeets_next]; exact hr
  · rw [unlessFaulted_of_serving hf]; exact ho hf

/-! ### What keeps the widths -/

theorem State.WidthInv.answered {s : State} (h : s.WidthInv) (err : Bool) {v : Word} (hv : v.toNat < 2 ^ s.cfg.W) :
    (s.answered err v).WidthInv := by
  obtain ⟨hrec, hreq, -, hrcv, hlut⟩ := h
  refine ⟨hrec, hreq, fun r hr => ?_, hrcv, hlut⟩
  obtain rfl := Port.answering.inj hr
  exact hv

theorem State.WidthInv.answered_zero {s : State} (h : s.WidthInv) (err : Bool) : (s.answered err 0).WidthInv :=
  h.answered err (Nat.two_pow_pos _)

/-- Fault entry keeps the widths when what it records is W bits wide (R26, R119). -/
theorem State.WidthInv.faulted {s : State} (h : s.WidthInv) (c : Cause) {a b v : Word} (ha : a.toNat < 2 ^ s.cfg.W)
    (hb : b.toNat < 2 ^ s.cfg.W) (hv : v.toNat < 2 ^ s.cfg.W) : (s.faulted c a b v).WidthInv := by
  obtain ⟨-, hreq, hport, hrcv, hlut⟩ := h.answered_zero true
  exact ⟨⟨ha, hb, hv⟩, hreq, hport, hrcv, hlut⟩

/-- A fault that records the sampled operands (R118). -/
theorem State.WidthInv.faulted_request {s : State} (h : s.WidthInv) (c : Cause) {v : Word}
    (hv : v.toNat < 2 ^ s.cfg.W) : (s.faulted c s.request.opa s.request.opb v).WidthInv :=
  have ⟨_, ⟨ha, hb⟩, _⟩ := h
  h.faulted c ha hb hv

/-- Of what a fill changes, the invariant looks at the LUT only. -/
theorem State.WidthInv.refilled {s : State} (h : s.WidthInv) {lut : Memory}
    (hl : ∀ k x, Memory.read lut k = some x → x.toNat < 2 ^ s.cfg.TW) (ph : Phase) (f : Option Cursor) (d : Nat) :
    { s with lut := lut, phase := ph, fill := f, draws := d }.WidthInv := by
  obtain ⟨hrec, hreq, hport, hrcv, -⟩ := h
  exact ⟨hrec, hreq, hport, hrcv, hl⟩

theorem FillRunning.widthInv {s₀ s : State} {c : Cursor} (h : FillRunning s₀ c s) (hw : s₀.WidthInv) :
    s.WidthInv := by
  obtain ⟨lut, draws, rfl, hF, -⟩ := h.state
  exact hw.refilled hF.toNat_lt _ _ _

theorem FillDone.widthInv {s₀ s : State} (h : FillDone s₀ s) (hw : s₀.WidthInv) : s.WidthInv := by
  obtain ⟨lut, draws, rfl, hF, -⟩ := h
  exact (hw.refilled hF.toNat_lt .done none draws).answered_zero false

/-- GEN's RANGE fault records the cell and its wide value (R118), which W bits hold. -/
theorem FillFault.widthInv {s₀ s : State} (h : FillFault s₀ s) (hl : s₀.cfg.legal = true) (hw : s₀.WidthInv) :
    s.WidthInv := by
  obtain ⟨i, j, hi, hj, -, -, -, rfl⟩ := h
  exact (hw.refilled (by simp) s₀.phase none s₀.draws).faulted .range
    (zext_lt (Params.legal_index_lt hl (.inl hi))) (zext_lt (Params.legal_index_lt hl (.inr hj))) (wideValue_lt hl i j)

/-! ### Each command -/

/-- ILV and VAL: the value is computed for h < W only, and h itself is recorded when it is not (R80, R81). -/
theorem evaluateBelowWidth_widthInv {s : State} (hl : s.cfg.legal = true) (hw : s.WidthInv) (h : BitVec 6) {v : Word}
    (hv : h.toNat < s.cfg.W → v.toNat < 2 ^ s.cfg.W) : NextMeets State.WidthInv (evaluateBelowWidth h v s) := by
  refine nextMeets_unlessFaulted (hw.answered_zero true) fun _ => ?_
  split
  · have hh : h.toNat < 2 ^ s.cfg.W :=
      lt_of_lt_of_le h.isLt (Nat.pow_le_pow_right (by omega) (by have := s.cfg.legal_iff.1 hl; omega))
    exact (nextMeets_next _ _).2 (hw.faulted_request _ (zext_lt hh))
  · next hlt => exact (nextMeets_next _ _).2 (hw.answered _ (hv (Nat.not_le.1 hlt)))

theorem illegalCommand_widthInv {s : State} (hw : s.WidthInv) : NextMeets State.WidthInv (illegalCommand s) :=
  nextMeets_unlessFaulted (hw.answered_zero true) fun _ =>
    (nextMeets_next _ _).2 (hw.faulted_request _ (Nat.two_pow_pos _))

theorem execGen_widthInv {s : State} (hl : s.cfg.legal = true) (hw : s.WidthInv) (hi : s.LutInv) :
    NextMeets State.WidthInv (execGen s) := by
  by_cases he : s.phase = .empty
  · obtain ⟨c, hrun⟩ := genStart_some_running hl hi
    obtain ⟨t, ht, hd | hf⟩ := execGen_of_empty he hrun <;> rw [ht, nextMeets_next]
    · exact hd.widthInv hw
    · exact hf.widthInv hl hw
  · obtain ⟨err, ht, -⟩ := execGen_of_not_empty he
    rw [ht, nextMeets_next]
    exact hw.answered_zero err

/-- RDL answers an element, which is TW ≤ W bits wide (R99, R20). -/
theorem execRdl_widthInv {s : State} (hl : s.cfg.legal = true) (hw : s.WidthInv) :
    NextMeets State.WidthInv (execRdl s) := by
  refine nextMeets_unlessFaulted (hw.answered_zero true) fun _ => ?_
  split
  · exact (nextMeets_next _ _).2 (hw.faulted_request _ (Nat.two_pow_pos _))
  · split
    · exact (nextMeets_next _ _).2 (hw.faulted_request _ (Nat.two_pow_pos _))
    · split
      · next x hx =>
        have ⟨_, _, _, _, hlut⟩ := hw
        have hTW : 2 ^ s.cfg.TW ≤ 2 ^ s.cfg.W :=
          Nat.pow_le_pow_right (by omega) (s.cfg.legal_iff.1 hl).2.2.1.2
        exact (nextMeets_next _ _).2 (hw.answered _ (lt_of_lt_of_le (hlut _ x hx) hTW))
      · exact fun t ht => by simp at ht

theorem execRdr_widthInv {s : State} (hl : s.cfg.legal = true) (hw : s.WidthInv) (sel : BitVec 6) :
    NextMeets State.WidthInv (execRdr sel s) := by
  unfold execRdr
  split
  · next v hv => exact (nextMeets_next _ _).2 (hw.answered _ (readRegister_lt hl hw hv))
  · exact illegalCommand_widthInv hw

theorem exec_widthInv {s : State} (hl : s.cfg.legal = true) (hw : s.WidthInv) (hi : s.LutInv) (i : Instr) :
    NextMeets State.WidthInv (exec i s) := by
  cases i with
  | ilv h => exact evaluateBelowWidth_widthInv hl hw h (bitInterleave_lt _ _ h.isLt)
  | val h => exact evaluateBelowWidth_widthInv hl hw h (bitInterleave_lt _ _ h.isLt)
  | gen => exact execGen_widthInv hl hw hi
  | rdl => exact execRdl_widthInv hl hw
  | rdr sel => exact execRdr_widthInv hl hw sel

/-! ### Each turn -/

theorem performCommand_widthInv {s : State} (hl : s.cfg.legal = true) (hw : s.WidthInv) (hi : s.LutInv) :
    NextMeets State.WidthInv (performCommand s) := by
  unfold performCommand
  split
  · exact exec_widthInv hl hw hi _
  · exact illegalCommand_widthInv hw

theorem resetEdge_widthInv {s : State} (hw : s.WidthInv) : (resetEdge s).WidthInv := by
  obtain ⟨-, -, -, hrcv, -⟩ := hw
  have hz : (0 : Word).toNat < 2 ^ s.cfg.W := Nat.two_pow_pos _
  exact ⟨⟨hz, hz, hz⟩, ⟨hz, hz⟩, by simp, hrcv, by simp⟩

/-- The operands are cut to W bits where they enter (R55), and a response is taken as it was presented (R56). -/
theorem handshake_widthInv {s : State} (hw : s.WidthInv) (i : PortInputs) : (handshake i s).WidthInv := by
  have ⟨hrec, hreq, hport, hrcv, hlut⟩ := hw
  rcases handshake_cases i s with ⟨-, h⟩ | ⟨-, -, h⟩ | ⟨r, hr, -, h⟩ | h <;> rw [h]
  · exact ⟨hrec, hreq, by simp, hrcv, hlut⟩
  · exact ⟨hrec, ⟨truncTo_lt _ _, truncTo_lt _ _⟩, by simp, hrcv, hlut⟩
  · refine ⟨hrec, hreq, by simp, fun q hq => ?_, hlut⟩
    rcases List.mem_append.1 hq with hq | hq
    · exact hrcv q hq
    · rw [List.mem_singleton.1 hq]; exact hport r hr
  · exact hw

theorem genCell_genStart_widthInv {s : State} (hl : s.cfg.legal = true) (hw : s.WidthInv) (hi : s.LutInv) :
    (genCell (genStart s)).WidthInv := by
  obtain ⟨c, hrun⟩ := genStart_some_running hl hi
  rcases hrun.step with ⟨c', -, hr⟩ | hd | hf
  · exact hr.widthInv hw
  · exact hd.widthInv hw
  · exact hf.widthInv hl hw

/-- Settles O56, by what the next turn is; LutInv gives the cursor of a fill in progress its bounds. -/
theorem stepKeepsWidths : Obligations.StepKeepsWidths := by
  intro s t hw hi h
  have hw' : (popTurn s).WidthInv := hw
  have hi' : (popTurn s).LutInv := hi
  obtain ⟨hl, ⟨-, rfl⟩ | ⟨-, i, -, rfl⟩ | ⟨-, -, hp⟩ | ⟨-, -, rfl⟩ | ⟨-, rfl⟩⟩ := step_cases h
  · exact resetEdge_widthInv hw'
  · exact handshake_widthInv hw' i
  · exact performCommand_widthInv (s := popTurn s) hl hw' hi' t hp
  · exact genCell_genStart_widthInv (s := popTurn s) hl hw' hi'
  · exact hw'

end Sys2Proof.Machine
end

section
/-! O55: every step keeps the LUT's invariant (10_state.md R32, R33, 20_memory.md R41, 41_lut_constructor.md R95). -/

namespace Sys2Proof.Machine

/-- The host waits while a command is accepted and has no response yet (R56). -/
theorem handshake_of_accepted {s : State} (h : s.port = .accepted) (i : PortInputs) : handshake i s = s := by
  simp [handshake, h]

/-- A clock edge without reset moves only the port, the sampled request and what the host has received. -/
theorem handshake_frame (i : PortInputs) (s : State) :
    (handshake i s).cfg = s.cfg ∧ (handshake i s).lut = s.lut ∧ (handshake i s).fill = s.fill ∧
      (handshake i s).phase = s.phase := by
  rcases handshake_cases i s with ⟨-, h⟩ | ⟨-, -, h⟩ | ⟨r, -, -, h⟩ | h <;> rw [h] <;> simp

theorem performCommand_of_generating {s : State} (hg : generating s = true) :
    performCommand s = .next (genCells s.cfg.cells (genStart s)) := by
  obtain ⟨-, he, hd⟩ := (generating_iff s).1 hg
  rw [performCommand, hd]
  exact exec_gen_of_empty he

theorem State.LutInv.generating_of_fill {s : State} (h : s.LutInv) {c : Cursor} (hf : s.fill = some c) :
    generating s = true := by
  obtain ⟨-, -, -, -, -, hfill⟩ := h
  exact (hfill c hf).1

theorem handshake_lutInv {s : State} (h : s.LutInv) (i : PortInputs) : (handshake i s).LutInv := by
  cases hf : s.fill with
  | some c => rwa [handshake_of_accepted ((generating_iff s).1 (h.generating_of_fill hf)).1]
  | none =>
    obtain ⟨hc, hl, hfill, hp⟩ := handshake_frame i s
    exact lutInv_frame h hc hl (hfill.trans hf) hf (.inl hp)

/-- A GEN performed whole ends its fill, whether it begins or resumes one (R33, R96). -/
theorem genCells_lutInv {s : State} (hl : s.cfg.legal = true) (h : s.LutInv) :
    (genCells s.cfg.cells (genStart s)).LutInv := by
  obtain ⟨c, hrun⟩ := genStart_some_running hl h
  rcases genCells_ends hrun with hd | hf
  · exact hd.lutInv
  · exact hf.lutInv

/-- A command other than a fill's GEN finds no fill begun, and the storage stands. -/
theorem performCommand_lutInv {s t : State} (hl : s.cfg.legal = true) (h : s.LutInv)
    (ht : performCommand s = .next t) : t.LutInv := by
  cases hf : s.fill with
  | some c =>
    rw [performCommand_of_generating (h.generating_of_fill hf)] at ht
    exact Host.Outcome.next.inj ht ▸ genCells_lutInv hl h
  | none =>
    rcases performCommand_cases ht with ⟨err, v, rfl, -⟩ | ⟨-, c, a, b, v, -, rfl⟩ | ⟨-, -, rfl⟩
    · exact lutInv_frame h rfl rfl hf hf (.inl rfl)
    · exact lutInv_frame h rfl rfl hf hf (.inr rfl)
    · exact genCells_lutInv hl h

theorem genCell_genStart_lutInv {s : State} (hl : s.cfg.legal = true) (h : s.LutInv) (hg : generating s = true) :
    (genCell (genStart s)).LutInv := by
  obtain ⟨c, hrun⟩ := genStart_some_running hl h
  rcases hrun.step with ⟨c', -, hr⟩ | hd | hf
  · exact hr.lutInv hg
  · exact hd.lutInv
  · exact hf.lutInv

/-- Settles O55, by what the next turn is. -/
theorem stepKeepsLut : Obligations.StepKeepsLut := by
  intro s t h hs
  have h' : (popTurn s).LutInv := h
  obtain ⟨hl, ⟨-, rfl⟩ | ⟨-, i, -, rfl⟩ | ⟨-, -, hp⟩ | ⟨-, hg, rfl⟩ | ⟨-, rfl⟩⟩ := step_cases hs
  · exact lutInv_of_nil rfl rfl (by simp)
  · exact handshake_lutInv h' i
  · exact performCommand_lutInv (s := popTurn s) hl h' hp
  · exact genCell_genStart_lutInv (s := popTurn s) hl h' hg
  · exact h'

end Sys2Proof.Machine
end

section
/-! O22: the fill cell by cell and the atomic one end alike (10_state.md R33, 20_memory.md R47). -/

namespace Sys2Proof.Machine

theorem FillRunning.cfg {s₀ s : State} {c : Cursor} (h : FillRunning s₀ c s) : s.cfg = s₀.cfg := by
  obtain ⟨lut, draws, rfl, -⟩ := h.state; rfl

/-- A fill that runs on is still its GEN's. -/
theorem FillRunning.generating {s₀ s : State} {c : Cursor} (h : FillRunning s₀ c s) (hg : generating s₀ = true) :
    generating s = true := by
  obtain ⟨lut, draws, rfl, -⟩ := h.state; exact hg

theorem genStart_of_fill {s : State} {c : Cursor} (h : s.fill = some c) : genStart s = s := by
  simp [genStart, h]

/-- N·M cell steps end a fill, so one cell step made ahead of them changes nothing. -/
theorem genCells_genCell {s₀ s : State} {c : Cursor} (h : FillRunning s₀ c s) :
    genCells s₀.cfg.cells (genCell s) = genCells s₀.cfg.cells s := by
  have hend : (genCells s₀.cfg.cells s).fill = none := (genCells_ends h).elim FillDone.fill FillFault.fill
  calc genCells s₀.cfg.cells (genCell s)
      = genCells (1 + s₀.cfg.cells) s := by rw [genCells_add]; simp [genCells, h.fill]
    _ = genCells 1 (genCells s₀.cfg.cells s) := by rw [Nat.add_comm, genCells_add]
    _ = genCells s₀.cfg.cells s := genCells_of_fill_none hend 1

/-- `u` is on the way to `t`: a GEN in progress in `u` ends in `t` when performed whole, and otherwise `u` is `t`. -/
def OnTheWayTo (t u : State) : Prop :=
  (generating u = true → exec .gen u = .next t) ∧ (generating u = false → u = t)

theorem exec_gen_of_generating {s : State} (hg : generating s = true) :
    exec .gen s = .next (genCells s.cfg.cells (genStart s)) :=
  exec_gen_of_empty ((generating_iff s).1 hg).2.1

/-- A state with its GEN answered and its fill over is where the remaining cell steps lead. -/
theorem onTheWayTo_of_fill_none {t u : State} {k : Nat} (hp : u.port ≠ .accepted) (hf : u.fill = none)
    (ht : genCells k u = t) : OnTheWayTo t u := by
  rw [genCells_of_fill_none hf] at ht
  exact ⟨fun hg => by simp [generating_of_port_ne hp] at hg, fun _ => ht⟩

/-- A cell turn stays on the way. -/
theorem OnTheWayTo.cellTurn {t u : State} (h : OnTheWayTo t u) (hl : u.cfg.legal = true) (hi : u.LutInv) :
    OnTheWayTo t (cellTurn u) := by
  unfold Machine.cellTurn
  split
  · next hg =>
    obtain ⟨c, hrun⟩ := genStart_some_running hl hi
    have ht : genCells u.cfg.cells (genCell (genStart u)) = t := by
      rw [genCells_genCell hrun]
      exact Host.Outcome.next.inj ((exec_gen_of_generating hg).symm.trans (h.1 hg))
    rcases hrun.step with ⟨c', -, hr⟩ | hd | hf
    · have hg' := hr.generating hg
      refine ⟨fun _ => ?_, fun hn => by simp [hg'] at hn⟩
      rw [exec_gen_of_generating hg', genStart_of_fill hr.fill, hr.cfg, ht]
    · refine onTheWayTo_of_fill_none ?_ hd.fill ht
      obtain ⟨lut, draws, he, -⟩ := hd
      rw [he]; simp
    · refine onTheWayTo_of_fill_none ?_ hf.fill ht
      obtain ⟨i, j, -, -, -, -, -, he⟩ := hf
      rw [he]; simp
  · exact h

theorem cellTurn_lutInv {s : State} (hl : s.cfg.legal = true) (h : s.LutInv) : (cellTurn s).LutInv := by
  unfold cellTurn
  split
  · next hg => exact genCell_genStart_lutInv hl h hg
  · exact h

theorem iterate_cellTurn_turns (k : Nat) (s : State) : (cellTurn^[k] s).turns = s.turns := by
  induction k generalizing s with
  | zero => rfl
  | succ k ih =>
    obtain ⟨-, -, hturns, -⟩ := cellTurn_frame s
    exact (ih (cellTurn s)).trans hturns

theorem OnTheWayTo.iterate_cellTurn {t u : State} (h : OnTheWayTo t u) (hl : u.cfg.legal = true) (hi : u.LutInv)
    (k : Nat) : OnTheWayTo t (Machine.cellTurn^[k] u) := by
  induction k generalizing u with
  | zero => exact h
  | succ k ih => exact ih (h.cellTurn hl hi) (by rwa [(cellTurn_frame u).1]) (cellTurn_lutInv hl hi)

theorem with_turns_eq_self {s : State} {ts : List Turn} (h : s.turns = ts) : { s with turns := ts } = s := by
  subst h; rfl

/-- Settles O22: each cell turn stays on the way to the end of the atomic GEN. -/
theorem cellStepsRefineAtomicGen : Obligations.CellStepsRefineAtomicGen := by
  intro s k hl hi hg
  have hrun := run_cell_turns k hl s.turns
  rw [with_turns_eq_self (iterate_cellTurn_turns k s)] at hrun
  have hway : OnTheWayTo (genCells s.cfg.cells (genStart s)) s :=
    ⟨fun _ => exec_gen_of_generating hg, fun hn => by simp [hg] at hn⟩
  exact ⟨_, cellTurn^[k] s, exec_gen_of_generating hg, hrun,
    hway.iterate_cellTurn hl hi k⟩

end Sys2Proof.Machine
end

section
/-! O33, O34, O52: the registers, STATUS, and what they read after reset (10_state.md R23, R27 to R31, R35,
60_exceptions.md R116). -/

namespace Sys2Proof.Machine

theorem exec_rdr_of_readRegister {s : State} {sel : BitVec 6} {v : Word} (h : readRegister s sel = some v) :
    exec (.rdr sel) s = .next (s.answered false v) := by
  simp [exec, execRdr, h, respond_eq_answered]

/-! ### STATUS and CFG_FLAGS as numbers and as fields -/

theorem statusWord_toNat (s : State) : (statusWord s).toNat = 16 * s.cause.code.toNat + s.phase.code.toNat := by
  have h : ∀ (c : BitVec 4) (p : BitVec 2), (((c ++ 0#2) ++ p).setWidth 64).toNat = 16 * c.toNat + p.toNat := by
    decide
  exact h _ _

/-- The fields of STATUS (R28). -/
theorem statusWord_fields (s : State) :
    (statusWord s).extractLsb' 0 2 = s.phase.code ∧ (statusWord s).extractLsb' 2 2 = 0#2 ∧
      (statusWord s).extractLsb' 4 4 = s.cause.code := by
  have h : ∀ (c : BitVec 4) (p : BitVec 2),
      (((c ++ 0#2) ++ p).setWidth 64).extractLsb' 0 2 = p ∧ (((c ++ 0#2) ++ p).setWidth 64).extractLsb' 2 2 = 0#2 ∧
        (((c ++ 0#2) ++ p).setWidth 64).extractLsb' 4 4 = c := by
    decide
  exact h _ _

theorem statusWord_resetOf (p : Params) : statusWord (State.resetOf p) = 0 :=
  BitVec.eq_of_toNat_eq (statusWord_toNat _)

theorem flagsWord_toNat (p : Params) :
    (flagsWord p).toNat = (if p.rangeCheck then 1 else 0) + (if p.overflow = .any then 2 else 0) := by
  unfold flagsWord
  split <;> split <;> rfl

/-! ### The fault record reads 0 when it is clear -/

/-- FCMD, FA, FB and FVAL read 0 when they are 0 (R31). -/
theorem readRegister_of_clear {s : State} (hcmd : s.fcmd = 0) (ha : s.fa = 0) (hb : s.fb = 0) (hv : s.fval = 0)
    {sel : BitVec 6} (h7 : 7 ≤ sel.toNat) (h10 : sel.toNat ≤ 10) : readRegister s sel = some 0 := by
  have hsel : sel.toNat = 7 ∨ sel.toNat = 8 ∨ sel.toNat = 9 ∨ sel.toNat = 10 := by omega
  rcases hsel with h | h | h | h <;> simp [readRegister, h, hcmd, ha, hb, hv]

/-- Settles O33: each register from `readRegister`; the constants fit in a word because the parameters are legal. -/
theorem rdrReadsEveryRegister : Obligations.RdrReadsEveryRegister := by
  intro s hl
  obtain ⟨-, ⟨-, hW⟩, ⟨-, hTW⟩, hhob⟩ := s.cfg.legal_iff.1 hl
  obtain ⟨hN, hM⟩ := size_lt_two_pow_W hl
  have hpow : 2 ^ s.cfg.W ≤ 2 ^ 64 := Nat.pow_le_pow_right (by omega) hW
  refine ⟨⟨_, exec_rdr_of_readRegister rfl, statusWord_toNat s⟩,
    ⟨_, exec_rdr_of_readRegister rfl, zext_toNat (by omega)⟩,
    ⟨_, exec_rdr_of_readRegister rfl, zext_toNat (by omega)⟩,
    ⟨_, exec_rdr_of_readRegister rfl, zext_toNat (by omega)⟩,
    ⟨_, exec_rdr_of_readRegister rfl, zext_toNat (by omega)⟩,
    ⟨_, exec_rdr_of_readRegister rfl, zext_toNat (by omega)⟩,
    ⟨_, exec_rdr_of_readRegister rfl, flagsWord_toNat s.cfg⟩,
    ⟨_, exec_rdr_of_readRegister rfl, ?_⟩,
    exec_rdr_of_readRegister rfl, exec_rdr_of_readRegister rfl, exec_rdr_of_readRegister rfl, ?_⟩
  · exact BitVec.toNat_setWidth_of_le (by omega)
  · intro hrec hp sel h7 h10
    obtain ⟨-, hcmd, ha, hb, hv⟩ := hrec.1 hp
    exact exec_rdr_of_readRegister (readRegister_of_clear hcmd ha hb hv h7 h10)

/-- Settles O34: the fields of STATUS for all codes at once, and the codes case by case. -/
theorem statusFields : Obligations.StatusFields := by
  refine ⟨⟨rfl, rfl, rfl⟩, ⟨rfl, rfl, rfl, rfl, rfl, rfl⟩, fun p c => ⟨?_, ?_⟩, fun s => ?_, fun p => ?_⟩
  · cases p <;> decide
  · cases c <;> decide
  · obtain ⟨hphase, hzero, hcause⟩ := statusWord_fields s
    refine ⟨_, exec_rdr_of_readRegister rfl, hphase, hzero, hcause, ?_⟩
    rw [statusWord_toNat]
    have := s.cause.code.isLt
    have := s.phase.code.isLt
    omega
  · exact exec_rdr_of_readRegister (congrArg some (statusWord_resetOf p))

/-- Settles O52: STATUS and the fault registers read 0 because the state they are made of is at reset. -/
theorem resetValues : Obligations.ResetValues := by
  intro p
  have hclear {sel : BitVec 6} (h7 : 7 ≤ sel.toNat) (h10 : sel.toNat ≤ 10) :
      exec (.rdr sel) (State.resetOf p) = .next ((State.resetOf p).answered false 0) :=
    exec_rdr_of_readRegister (readRegister_of_clear rfl rfl rfl rfl h7 h10)
  exact ⟨rfl, rfl, rfl, rfl, rfl, rfl, Memory.read_nil, rfl, rfl, rfl, by simp [State.resetOf], rfl,
    exec_rdr_of_readRegister (congrArg some (statusWord_resetOf p)), hclear (by decide) (by decide),
    hclear (by decide) (by decide), hclear (by decide) (by decide), hclear (by decide) (by decide)⟩

end Sys2Proof.Machine
end

section
/-! O36: the commands that only read (10_state.md R36, 20_memory.md R46). -/

namespace Sys2Proof.Machine

/-- Settles O36: a command other than GEN that answers without error has only moved the port. -/
theorem readsChangeNothing : Obligations.ReadsChangeNothing := by
  rintro s t i hi hx ⟨v, hv⟩
  rcases exec_read_cases i s hi with ⟨err, w, he, -⟩ | ⟨-, c, a, b, w, -, he⟩ | ⟨-, -, he, -⟩ <;> rw [he] at hx
  · obtain rfl := Host.Outcome.next.inj hx
    simp
  · obtain rfl := Host.Outcome.next.inj hx
    simp at hv
  · simp at hx

end Sys2Proof.Machine
end

section
/-! O41, O42, O54: PHASE and the fault record over one step (10_state.md R24 to R26, R31, 60_exceptions.md R120). What a
step that is no reset does to them is said once, by `step_phaseStep`. -/

namespace Sys2Proof.Machine

/-- CAUSE, FCMD, FA, FB and FVAL together (R25, R26). -/
def State.faultRecord (s : State) : Cause × BitVec 16 × Word × Word × Word :=
  (s.cause, s.fcmd, s.fa, s.fb, s.fval)

theorem faultRecord_eq_iff {s t : State} :
    t.faultRecord = s.faultRecord ↔
      t.cause = s.cause ∧ t.fcmd = s.fcmd ∧ t.fa = s.fa ∧ t.fb = s.fb ∧ t.fval = s.fval := by
  simp [State.faultRecord]

/-- What a step from `s` to `t` that is no reset does to PHASE and the fault record (R24, R25, R26). -/
inductive PhaseStep (s t : State) : Prop where
  /-- both are kept; an answer, if this step gives one, is no GEN's in EMPTY, and an error only in FAULT -/
  | kept (phase : t.phase = s.phase) (record : t.faultRecord = s.faultRecord)
      (answer : s.port = .accepted → ∀ r, t.port = .answering r →
        generating s = false ∧ (r.err = true → s.phase = .fault))
  /-- a GEN in EMPTY is complete -/
  | filled (gen : generating s = true) (phase : t.phase = .done) (record : t.faultRecord = s.faultRecord)
      (port : t.port = .answering { err := false, data := 0 })
  /-- fault entry by the accepted command -/
  | faulted (accepted : s.port = .accepted) (serving : s.phase ≠ .fault) (phase : t.phase = .fault)
      (cause : t.cause ≠ .none) (port : t.port = .answering { err := true, data := 0 })

/-- No answer comes with a port that still waits. -/
theorem PhaseStep.kept_of_port {s t : State} (hp : t.phase = s.phase) (hr : t.faultRecord = s.faultRecord)
    (ha : s.port = .accepted → t.port = .accepted) : PhaseStep s t :=
  .kept hp hr fun h r e => by simp [ha h] at e

theorem FillOutline.phaseStep {s t : State} (h : FillOutline s t) (hg : generating s = true) : PhaseStep s t := by
  obtain ⟨hport, he, -⟩ := (generating_iff s).1 hg
  rcases h.ending with ⟨hp, hq, hrec⟩ | ⟨hp, -, hq, hrec⟩ | ⟨hp, -, hq, hc, -⟩
  · exact .kept_of_port (hp.trans he.symm) (faultRecord_eq_iff.2 hrec) fun h => hq.trans h
  · exact .filled hg hp (faultRecord_eq_iff.2 hrec) hq
  · exact .faulted hport (by simp [he]) hp (by simp [hc]) hq

theorem handshake_phaseStep (i : PortInputs) (s : State) : PhaseStep s (handshake i s) := by
  refine .kept_of_port (handshake_frame i s).2.2.2 ?_ fun h => by rw [handshake_of_accepted h, h]
  rcases handshake_cases i s with ⟨-, h⟩ | ⟨-, -, h⟩ | ⟨r, -, -, h⟩ | h <;> rw [h] <;> rfl

theorem performCommand_phaseStep {s t : State} (hp : s.port = .accepted) (h : performCommand s = .next t) :
    PhaseStep s t := by
  cases hg : generating s with
  | true =>
    rw [performCommand_of_generating hg] at h
    obtain rfl := Host.Outcome.next.inj h
    exact (genCells_outline ((generating_iff s).1 hg).2.1 _).phaseStep hg
  | false =>
    rcases performCommand_cases h with ⟨err, v, rfl, herr⟩ | ⟨hs, c, a, b, v, hc, rfl⟩ | ⟨he, hd, -⟩
    · refine .kept rfl rfl fun _ r hr => ⟨hg, fun hre => (herr ?_).2⟩
      rw [answered_port, Port.answering.injEq] at hr
      rw [← hre, ← hr]
    · exact .faulted hp hs rfl hc rfl
    · simp [(generating_iff s).2 ⟨hp, he, hd⟩] at hg

/-- Every step that is no reset. -/
theorem step_phaseStep {s t : State} (h : step s = .next t) (hr : s.resetNext = false) : PhaseStep (popTurn s) t := by
  obtain ⟨-, ⟨hr', -⟩ | ⟨-, i, -, rfl⟩ | ⟨-, hp, hx⟩ | ⟨-, hg, rfl⟩ | ⟨-, rfl⟩⟩ := step_cases h
  · simp [hr] at hr'
  · exact handshake_phaseStep i _
  · exact performCommand_phaseStep hp hx
  · have he : (popTurn s).phase = .empty := ((generating_iff s).1 hg).2.1
    exact ((genStart_outline he).cell ((genStart_frame _).2.2.2.2.1.trans he)).phaseStep hg
  · exact .kept_of_port rfl rfl id

/-- Every step that is a reset. -/
theorem step_of_resetNext {s t : State} (h : step s = .next t) (hr : s.resetNext = true) :
    t = resetEdge (popTurn s) := by
  obtain ⟨-, ⟨-, e⟩ | ⟨hn, -⟩ | ⟨hn, -⟩ | ⟨hn, -⟩ | ⟨hn, -⟩⟩ := step_cases h
  · exact e
  all_goals simp [hr] at hn

/-- How PHASE can change without a reset (R24). -/
theorem PhaseStep.change {s t : State} (h : PhaseStep s t) (hne : t.phase ≠ s.phase) :
    s.port = .accepted ∧
      ((s.phase = .empty ∧ t.phase = .done ∧ decode s.request.cmd = .instr .gen) ∨
        (s.phase ≠ .fault ∧ t.phase = .fault ∧ t.cause ≠ .none ∧
          t.port = .answering { err := true, data := 0 })) := by
  cases h with
  | kept phase => exact absurd phase hne
  | filled gen phase =>
    obtain ⟨hp, he, hd⟩ := (generating_iff s).1 gen
    exact ⟨hp, .inl ⟨he, phase, hd⟩⟩
  | faulted accepted serving phase cause port => exact ⟨accepted, .inr ⟨serving, phase, cause, port⟩⟩

/-- What an answer says of PHASE (R24, R67). -/
theorem PhaseStep.answer_phase {s t : State} (h : PhaseStep s t) (hp : s.port = .accepted) {r : Response}
    (hr : t.port = .answering r) :
    (r.err = true → t.phase = .fault) ∧
      (r.err = false → t.phase =
        if s.phase = .empty ∧ decode s.request.cmd = .instr .gen then .done else s.phase) := by
  cases h with
  | kept phase _ answer =>
    obtain ⟨hg, herr⟩ := answer hp r hr
    have hno : ¬ (s.phase = .empty ∧ decode s.request.cmd = .instr .gen) := fun hc => by
      simp [(generating_iff s).2 ⟨hp, hc⟩] at hg
    exact ⟨fun e => phase.trans (herr e), fun _ => by rw [if_neg hno, phase]⟩
  | filled gen phase _ port =>
    obtain ⟨-, hc⟩ := (generating_iff s).1 gen
    obtain rfl := Port.answering.inj (port.symm.trans hr)
    exact ⟨fun e => by simp at e, fun _ => by rw [if_pos hc, phase]⟩
  | faulted _ _ phase _ port =>
    obtain rfl := Port.answering.inj (port.symm.trans hr)
    exact ⟨fun _ => phase, fun e => by simp at e⟩

/-- Settles O41: a step is a reset, or what it does to PHASE is a `PhaseStep`. -/
theorem phaseTransitions : Obligations.PhaseTransitions := by
  intro s t h
  refine ⟨fun hr => ?_, fun hr => (step_phaseStep h hr).change, fun hp r hport => ?_⟩
  · rw [step_of_resetNext h hr]; rfl
  · cases hr : s.resetNext with
    | true => rw [step_of_resetNext h hr] at hport; simp at hport
    | false => exact (step_phaseStep h hr).answer_phase hp hport

/-- Settles O42: of the three kinds of `PhaseStep` only fault entry changes the record. -/
theorem faultRecordWrittenByEntryOrReset : Obligations.FaultRecordWrittenByEntryOrReset := by
  intro s t h hr hne
  have hrec : t.faultRecord ≠ s.faultRecord := fun e => by
    obtain ⟨h1, h2, h3, h4, h5⟩ := faultRecord_eq_iff.1 e
    simp [h1, h2, h3, h4, h5] at hne
  cases step_phaseStep h hr with
  | kept _ record => exact absurd record hrec
  | filled _ _ record => exact absurd record hrec
  | faulted _ serving phase => exact ⟨serving, phase⟩

/-- The record's invariant over a step that writes no fault. -/
theorem State.FaultRecordInv.of_record_eq {s t : State} (h : s.FaultRecordInv) (hr : t.faultRecord = s.faultRecord)
    (hp : t.phase = .fault ↔ s.phase = .fault) : t.FaultRecordInv := by
  obtain ⟨h1, h2, h3, h4, h5⟩ := faultRecord_eq_iff.1 hr
  unfold State.FaultRecordInv at *
  rwa [h1, h2, h3, h4, h5, ne_eq, hp]

/-- Settles O54: a reset clears the record, fault entry leaves a cause, and every other step keeps it. -/
theorem stepKeepsFaultRecord : Obligations.StepKeepsFaultRecord := by
  intro s t hi h
  cases hr : s.resetNext with
  | true =>
    rw [step_of_resetNext h hr]
    exact ⟨fun _ => ⟨rfl, rfl, rfl, rfl, rfl⟩, fun hp => by simp at hp⟩
  | false =>
    cases step_phaseStep h hr with
    | kept phase record => exact hi.of_record_eq record (by simp [phase])
    | filled gen phase record =>
      have he : s.phase = .empty := ((generating_iff s).1 gen).2.1
      exact hi.of_record_eq record (by simp [phase, he])
    | faulted _ _ phase cause => exact ⟨fun hn => absurd phase hn, fun _ => cause⟩

end Sys2Proof.Machine
end

section
/-! O3, O45, O53: the parameters (10_state.md R20, R29, R30) and the machine just reset (R35). -/

namespace Sys2Proof.Machine

/-- Settles O3: `Params.legal` is the conjunction of R20's items, and `elaborate` tests it. -/
theorem elaborationCheck : Obligations.ElaborationCheck :=
  fun p => ⟨p.legal_iff, fun h => by simp [elaborate, h], fun h => by simp [elaborate, h]⟩

theorem performCommand_cfg {s t : State} (h : performCommand s = .next t) : t.cfg = s.cfg := by
  rcases performCommand_cases h with ⟨err, v, rfl, -⟩ | ⟨-, c, a, b, v, -, rfl⟩ | ⟨-, -, rfl⟩
  · rfl
  · rfl
  · exact (genCells_frame _ _).1.trans (genStart_frame s).1

theorem step_cfg {s t : State} (h : step s = .next t) : t.cfg = s.cfg := by
  obtain ⟨-, ⟨-, rfl⟩ | ⟨-, i, -, rfl⟩ | ⟨-, -, hx⟩ | ⟨-, -, rfl⟩ | ⟨-, rfl⟩⟩ := step_cases h
  · rfl
  · exact (handshake_frame i (popTurn s)).1
  · exact performCommand_cfg (s := popTurn s) hx
  · exact (genCell_frame _).1.trans (genStart_frame (popTurn s)).1
  · rfl

/-- Settles O45: no turn writes the parameters, and the step tests them first. -/
theorem parametersAreConstant : Obligations.ParametersAreConstant :=
  ⟨fun _ _ => step_cfg, fun s h => by simp [step, h]⟩

theorem runFrom_inv {p : Params} (hl : p.legal = true) (turns : List Turn) : (runFrom p turns).Inv := by
  have hz : (0 : Word).toNat < 2 ^ p.W := Nat.two_pow_pos _
  refine ⟨hl, ⟨fun _ => ⟨rfl, rfl, rfl, rfl, rfl⟩, ?_⟩, lutInv_of_nil rfl rfl ?_,
    ⟨⟨hz, hz, hz⟩, ⟨hz, hz⟩, ?_, ?_, ?_⟩, ?_, ?_⟩ <;> simp [runFrom, State.resetOf]

/-- Settles O53: State.reset is a run's start with nothing scheduled. -/
theorem resetMeetsInvariants : Obligations.ResetMeetsInvariants :=
  ⟨fun _ turns hl => runFrom_inv hl turns, runFrom_inv (p := Params.reference) (by decide) []⟩

end Sys2Proof.Machine
end

section
/-! O21, O44: the LUT whole or empty after a GEN (20_memory.md R47, 41_lut_constructor.md R98), and unwritten in DONE
(R54). -/

namespace Sys2Proof.Machine

/-- Settles O21: the fill GEN begins or resumes ends, with every cell stored or with RANGE and the LUT emptied. -/
theorem genAllOrNothing : Obligations.GenAllOrNothing := by
  intro s hl he hi
  obtain ⟨c, hrun⟩ := genStart_some_running hl hi
  obtain ⟨t, ht, hend⟩ := execGen_of_empty he hrun
  refine ⟨t, ht, ?_⟩
  rcases hend with ⟨lut, draws, rfl, hF, -⟩ | ⟨i, j, -, -, -, -, -, rfl⟩
  · exact .inl ⟨rfl, rfl, fun i j hi hj => (hF.listed i j hi hj).2 trivial⟩
  · exact .inr ⟨rfl, rfl, rfl, Memory.read_nil⟩

/-- Only a GEN in EMPTY writes the LUT. -/
theorem performCommand_lut {s t : State} (hp : s.phase ≠ .empty) (h : performCommand s = .next t) : t.lut = s.lut := by
  rcases performCommand_cases h with ⟨err, v, rfl, -⟩ | ⟨-, c, a, b, v, -, rfl⟩ | ⟨he, -⟩
  · rfl
  · rfl
  · exact absurd he hp

/-- Out of EMPTY only a reset writes the LUT. -/
theorem step_lut {s t : State} (hp : s.phase ≠ .empty) (h : step s = .next t) (hr : s.resetNext = false) :
    t.lut = s.lut := by
  obtain ⟨-, ⟨hr', -⟩ | ⟨-, i, -, rfl⟩ | ⟨-, -, hx⟩ | ⟨-, hg, -⟩ | ⟨-, rfl⟩⟩ := step_cases h
  · simp [hr] at hr'
  · exact (handshake_frame i (popTurn s)).2.1
  · exact performCommand_lut (s := popTurn s) hp hx
  · exact absurd ((generating_iff s).1 hg).2.1 hp
  · rfl

/-- Settles O44: the storage itself stands, so every read does. -/
theorem lutImmutableInDone : Obligations.LutImmutableInDone := by
  intro s t hd h hr k
  rw [step_lut (by simp [hd]) h hr]

end Sys2Proof.Machine
end

section
/-! A step keeps the responses' invariant (30_encoding.md R68): O58 and O59 rest on it. -/

namespace Sys2Proof.Machine

/-- The invariant of a state in which the host has received no more: the response presented decides. -/
theorem State.ResponseInv.of_port {s t : State} (h : s.ResponseInv) (hrcv : t.received = s.received)
    (hp : ∀ r, t.port = .answering r → r.err = true → r.data = 0) : t.ResponseInv :=
  ⟨hp, hrcv ▸ h.2⟩

/-- An answer with data 0 in the error case, over a state that keeps the invariant. -/
theorem State.ResponseInv.of_answering {s t : State} (h : s.ResponseInv) (hrcv : t.received = s.received)
    {err : Bool} {v : Word} (hp : t.port = .answering { err := err, data := v }) (hv : err = true → v = 0) :
    t.ResponseInv :=
  h.of_port hrcv fun r hr => by
    obtain rfl := Port.answering.inj (hp.symm.trans hr)
    exact hv

theorem handshake_responseInv {s : State} (h : s.ResponseInv) (i : PortInputs) : (handshake i s).ResponseInv := by
  rcases handshake_cases i s with ⟨-, e⟩ | ⟨-, -, e⟩ | ⟨r, hr, -, e⟩ | e <;> rw [e]
  · exact h.of_port rfl (by simp)
  · exact h.of_port rfl (by simp)
  · refine ⟨by simp, fun q hq => ?_⟩
    rcases List.mem_append.1 hq with hq | hq
    · exact h.2 q hq
    · rw [List.mem_singleton.1 hq]; exact h.1 r hr
  · exact h

theorem FillOutline.responseInv {s u : State} (h : FillOutline s u) (hi : s.ResponseInv) : u.ResponseInv := by
  rcases h.ending with ⟨-, hp, -⟩ | ⟨-, -, hp, -⟩ | ⟨-, -, hp, -⟩
  · exact hi.of_port h.received (hp ▸ hi.1)
  · exact hi.of_answering h.received hp fun _ => rfl
  · exact hi.of_answering h.received hp fun _ => rfl

theorem performCommand_responseInv {s t : State} (hi : s.ResponseInv) (h : performCommand s = .next t) :
    t.ResponseInv := by
  rcases performCommand_cases h with ⟨err, v, rfl, herr⟩ | ⟨-, c, a, b, v, -, rfl⟩ | ⟨he, -, rfl⟩
  · exact hi.of_answering rfl rfl fun e => (herr e).1
  · exact hi.of_answering rfl rfl fun _ => rfl
  · exact (genCells_outline he _).responseInv hi

/-- Every step keeps error responses at data 0, by what the next turn is (R68). -/
theorem step_responseInv {s t : State} (hi : s.ResponseInv) (h : step s = .next t) : t.ResponseInv := by
  have hi' : (popTurn s).ResponseInv := hi
  obtain ⟨-, ⟨-, rfl⟩ | ⟨-, i, -, rfl⟩ | ⟨-, -, hx⟩ | ⟨-, hg, rfl⟩ | ⟨-, rfl⟩⟩ := step_cases h
  · exact hi'.of_port rfl (by simp)
  · exact handshake_responseInv hi' i
  · exact performCommand_responseInv hi' hx
  · have he : (popTurn s).phase = .empty := ((generating_iff s).1 hg).2.1
    exact ((genStart_outline he).cell ((genStart_frame _).2.2.2.2.1.trans he)).responseInv hi'
  · exact hi'

end Sys2Proof.Machine
end

section
/-! O58, O59: no step and no run stops (20_memory.md R48, 70_reset_and_hazards.md R143, R145). The one stop of
the commands, an RDL of an element without a value, needs a hole in DONE's LUT, which the LUT's invariant excludes. -/

namespace Sys2Proof.Machine

/-- Every command has an outcome: RDL in DONE finds an element, because every cell has one (R32). -/
theorem exec_next {s : State} (h : s.LutInv) (i : Instr) : ∃ t, exec i s = .next t := by
  by_cases hi : i = .gen
  · subst hi
    by_cases he : s.phase = .empty
    · exact ⟨_, exec_gen_of_empty he⟩
    · obtain ⟨err, hx, -⟩ := execGen_of_not_empty he
      exact ⟨_, hx⟩
  · rcases exec_read_cases i s hi with ⟨err, v, hx, -⟩ | ⟨-, c, a, b, v, -, hx⟩ | ⟨-, hd, -, hr, hc, hnone⟩
    · exact ⟨_, hx⟩
    · exact ⟨_, hx⟩
    · obtain ⟨-, -, -, hdone, -⟩ := h
      obtain ⟨x, hx⟩ := hdone hd _ _ hr hc
      simp [hnone] at hx

theorem illegalCommand_next (s : State) : ∃ t, illegalCommand s = .next t := by
  by_cases hf : s.phase = .fault
  · exact ⟨_, unlessFaulted_of_fault hf _⟩
  · exact ⟨_, unlessFaulted_of_serving hf _⟩

theorem performCommand_next {s : State} (h : s.LutInv) : ∃ t, performCommand s = .next t := by
  unfold performCommand
  split
  · exact exec_next h _
  · exact illegalCommand_next s

/-- Progress: with legal parameters and the LUT's invariant there is a next state, whoever moves. -/
theorem step_next {s : State} (hl : s.cfg.legal = true) (h : s.LutInv) : ∃ t, step s = .next t := by
  rw [step, if_pos hl]
  cases nextTurn s with
  | edge i => exact ⟨_, rfl⟩
  | cell => exact ⟨_, rfl⟩
  | perform =>
    rw [takeTurn, performTurn]
    split
    · exact performCommand_next (s := popTurn s) h
    · exact ⟨_, rfl⟩

/-- Preservation: each invariant by its own step lemma. -/
theorem step_inv {s t : State} (hi : s.Inv) (h : step s = .next t) : t.Inv := by
  obtain ⟨hl, hrec, hlut, hwidth, hresp⟩ := hi
  exact ⟨by rw [step_cfg h]; exact hl, stepKeepsFaultRecord s t hrec h, stepKeepsLut s t hlut h,
    stepKeepsWidths s t hwidth hlut h, step_responseInv hresp h⟩

/-- Settles O59: progress and preservation. -/
theorem invariantStateStepsOn : Obligations.InvariantStateStepsOn := by
  intro s hi
  have ⟨hl, _, hlut, _⟩ := hi
  obtain ⟨t, ht⟩ := step_next hl hlut
  exact ⟨t, ht, step_inv hi ht⟩

/-- A run of any length from a state that meets the invariants, by induction on its length. -/
theorem run_inv (n : Nat) {s : State} (hi : s.Inv) : ∃ t, core.run n s = .next t ∧ t.Inv ∧ t.cfg = s.cfg := by
  induction n generalizing s with
  | zero => exact ⟨s, run_zero s, hi, rfl⟩
  | succ n ih =>
    obtain ⟨u, hu, hui⟩ := invariantStateStepsOn s hi
    obtain ⟨t, ht, hti, hcfg⟩ := ih hui
    exact ⟨t, (run_succ hu n).trans ht, hti, hcfg.trans (step_cfg hu)⟩

/-- Settles O58: a run begins in a state that meets the invariants. -/
theorem runsNeverStop : Obligations.RunsNeverStop :=
  fun _ turns n hl => run_inv n (runFrom_inv hl turns)

end Sys2Proof.Machine
end

section
/-! O5, O6, O7: the decoder against the encoder, the match and mask table and the reserved encodings
(30_encoding.md R57 to R65). -/

namespace Sys2Proof

/-! ### Decode and encode -/

/-- The word of a well-formed command decodes to it (R62, R63). -/
theorem decode_encode {i : Instr} (hi : i.wellFormed = true) : decode (encode i) = .instr i :=
  (decode_eq_instr_iff _ _).2 ⟨by simp [encode], by simp [encode], by simp [encode], hi⟩

theorem wellFormed_of_decode {w : BitVec 16} {i : Instr} (h : decode w = .instr i) : i.wellFormed = true := by
  obtain ⟨-, -, -, hi⟩ := (decode_eq_instr_iff w i).1 h
  exact hi

/-- A word that decodes to a command has the command's fields, and a word is its fields (R57). -/
theorem encode_of_decode {w : BitVec 16} {i : Instr} (h : decode w = .instr i) : encode i = w := by
  obtain ⟨hrsv, hop, hhs, -⟩ := (decode_eq_instr_iff w i).1 h
  exact word_ext (by simp [encode, hrsv]) (by simp [encode, hhs]) (by simp [encode, hop])

/-- Settles O5: both directions go through the word's three fields. -/
theorem decodeAndEncodeAgree : Obligations.DecodeAndEncodeAgree :=
  ⟨fun _ => decode_encode, fun _ _ h => ⟨wellFormed_of_decode h, encode_of_decode h⟩⟩

/-! ### The match and mask table -/

/-- Two words are equal exactly when their fields are. -/
theorem word_eq_iff {w w' : BitVec 16} :
    w = w' ↔ rsvField w = rsvField w' ∧ hsField w = hsField w' ∧ opField w = opField w' :=
  ⟨fun h => by simp [h], fun ⟨hr, hh, ho⟩ => word_ext hr hh ho⟩

@[simp] theorem rsvField_and (w m : BitVec 16) : rsvField (w &&& m) = rsvField w &&& rsvField m :=
  BitVec.extractLsb'_and

@[simp] theorem hsField_and (w m : BitVec 16) : hsField (w &&& m) = hsField w &&& hsField m :=
  BitVec.extractLsb'_and

@[simp] theorem opField_and (w m : BitVec 16) : opField (w &&& m) = opField w &&& opField m :=
  BitVec.extractLsb'_and

/-- Every row of the table masks the whole of RSV and OP, and its pattern is {0, 0, OP} (R62). -/
theorem opcodeRow_fields (i : Instr) :
    rsvField (opcodeRow i).mask = BitVec.allOnes 6 ∧ opField (opcodeRow i).mask = BitVec.allOnes 4 ∧
      rsvField (opcodeRow i).pattern = 0 ∧ hsField (opcodeRow i).pattern = 0 ∧
      opField (opcodeRow i).pattern = opcode i := by
  cases i <;> simp only [opcodeRow, opcode] <;> decide

/-- What a row asks of a word's fields; on HS it is the bits masked and the bound (R62). -/
theorem opcodeRow_fits_iff (i : Instr) (w : BitVec 16) :
    (opcodeRow i).fits w = true ↔
      rsvField w = 0 ∧ opField w = opcode i ∧ hsField w &&& hsField (opcodeRow i).mask = 0 ∧
        (hsField w).toNat ≤ (opcodeRow i).hsMax := by
  obtain ⟨hmr, hmo, hpr, hph, hpo⟩ := opcodeRow_fields i
  rw [OpcodeRow.fits_iff, word_eq_iff, rsvField_and, hsField_and, opField_and, hmr, hmo, hpr, hph, hpo,
    BitVec.and_allOnes, BitVec.and_allOnes]
  tauto

/-- The HS of a command meets what the command's row asks of HS exactly when the command is well formed. -/
theorem hsOf_fits_iff (i : Instr) :
    (hsOf i &&& hsField (opcodeRow i).mask = 0 ∧ (hsOf i).toNat ≤ (opcodeRow i).hsMax) ↔ i.wellFormed = true := by
  have hmask : hsField 0xFC0F#16 = 0#6 := by decide
  cases i with
  | ilv h => simpa [hsOf, opcodeRow, Instr.wellFormed, hmask] using Nat.le_of_lt_succ h.isLt
  | val h => simpa [hsOf, opcodeRow, Instr.wellFormed, hmask] using Nat.le_of_lt_succ h.isLt
  | gen => decide
  | rdl => decide
  | rdr sel => simp [hsOf, opcodeRow, Instr.wellFormed, hmask]

/-- The decoder is the table: a word decodes to a command when it fits the command's row and carries its HS (R62). -/
theorem decode_eq_instr_iff_fits (w : BitVec 16) (i : Instr) :
    decode w = .instr i ↔ (opcodeRow i).fits w = true ∧ hsField w = hsOf i := by
  rw [decode_eq_instr_iff, opcodeRow_fits_iff, ← hsOf_fits_iff]
  constructor
  · rintro ⟨hrsv, hop, hhs, hfit⟩
    exact ⟨⟨hrsv, hop, hhs ▸ hfit⟩, hhs⟩
  · rintro ⟨⟨hrsv, hop, hfit⟩, hhs⟩
    exact ⟨hrsv, hop, hhs, hhs ▸ hfit⟩

/-! ### The legal words -/

/-- The 64 values of HS. -/
def hsValues : List (BitVec 6) := (List.finRange 64).map BitVec.ofFin

theorem mem_hsValues (h : BitVec 6) : h ∈ hsValues := List.mem_map.2 ⟨h.toFin, List.mem_finRange _, rfl⟩

theorem hsValues_nodup : hsValues.Nodup :=
  (List.nodup_finRange 64).map fun _ _ h => BitVec.ofFin.inj h

/-- The well-formed commands, by mnemonic: 64 + 64 + 1 + 1 + 11 of them (R62). -/
def legalCommands : List Instr :=
  hsValues.map .ilv ++ (hsValues.map .val ++ (.gen :: .rdl :: (hsValues.filter (·.toNat ≤ 10)).map .rdr))

theorem mem_legalCommands (i : Instr) : i ∈ legalCommands ↔ i.wellFormed = true := by
  cases i <;> simp [legalCommands, Instr.wellFormed, mem_hsValues]

theorem legalCommands_nodup : legalCommands.Nodup := by
  have hilv : (hsValues.map Instr.ilv).Nodup := hsValues_nodup.map fun _ _ => Instr.ilv.inj
  have hval : (hsValues.map Instr.val).Nodup := hsValues_nodup.map fun _ _ => Instr.val.inj
  have hrdr : ((hsValues.filter (·.toNat ≤ 10)).map Instr.rdr).Nodup :=
    (hsValues_nodup.filter _).map fun _ _ => Instr.rdr.inj
  unfold legalCommands
  refine hilv.append (hval.append ?_ ?_) ?_
  · simp [hrdr]
  · simp [List.disjoint_left]
  · simp [List.disjoint_left]

theorem legalCommands_length : legalCommands.length = 141 := by
  have hall : hsValues.length = 64 := by simp [hsValues]
  have hsel : (hsValues.filter (·.toNat ≤ 10)).length = 11 := by decide
  simp [legalCommands, hall, hsel]

/-- The legal words, each the word of one well-formed command (R62). -/
def legalWords : List (BitVec 16) := legalCommands.map encode

theorem mem_legalWords (w : BitVec 16) : w ∈ legalWords ↔ ∃ i, decode w = .instr i := by
  rw [legalWords, List.mem_map]
  constructor
  · rintro ⟨i, hi, rfl⟩
    exact ⟨i, decode_encode ((mem_legalCommands i).1 hi)⟩
  · rintro ⟨i, hi⟩
    exact ⟨i, (mem_legalCommands i).2 (wellFormed_of_decode hi), encode_of_decode hi⟩

/-- Distinct well-formed commands have distinct words, because each decodes to its own command. -/
theorem legalWords_nodup : legalWords.Nodup := by
  refine legalCommands_nodup.map_on fun i hi j hj h => ?_
  have hdi := decode_encode ((mem_legalCommands i).1 hi)
  have hdj := decode_encode ((mem_legalCommands j).1 hj)
  exact Decoded.instr.inj (hdi.symm.trans (h ▸ hdj))

/-- Settles O6: a row fixes OP, and the legal words are those of the 141 well-formed commands. -/
theorem opcodeMap : Obligations.OpcodeMap := by
  refine ⟨fun w i _ => decode_eq_instr_iff_fits w i, fun w i j hi hj => ?_, legalWords, legalWords_nodup, ?_,
    mem_legalWords⟩
  · obtain ⟨-, hopi, -⟩ := (opcodeRow_fits_iff i w).1 hi
    obtain ⟨-, hopj, -⟩ := (opcodeRow_fits_iff j w).1 hj
    exact hopi.symm.trans hopj
  · rw [legalWords, List.length_map, legalCommands_length]

/-! ### The reserved encodings -/

/-- The opcodes beside those of the five commands (R58). -/
theorem reservedOpcode_iff (op : BitVec 4) :
    (op ≠ 1 ∧ op ≠ 2 ∧ op ≠ 3 ∧ op ≠ 4 ∧ op ≠ 5) ↔ op = 0 ∨ 6 ≤ op.toNat := by
  revert op; decide

/-- Settles O7, branch by branch of decode: in a branch that gives a command no reserved encoding is left, and each
other branch is one of them. -/
theorem reservedEncodingsAreIllegal : Obligations.ReservedEncodingsAreIllegal := by
  intro w
  unfold decode
  split_ifs with hrsv h1 h2 h3 hgen h4 hrdl h5 hsel
  · exact iff_of_true ⟨_, rfl⟩ (.inl hrsv)
  · simp [not_not.1 hrsv, h1]
  · simp [not_not.1 hrsv, h2]
  · simp [not_not.1 hrsv, h3, hgen]
  · exact iff_of_true ⟨_, rfl⟩ (.inr (.inr (.inr (.inl ⟨.inl h3, hgen⟩))))
  · simp [not_not.1 hrsv, h4, hrdl]
  · exact iff_of_true ⟨_, rfl⟩ (.inr (.inr (.inr (.inl ⟨.inr h4, hrdl⟩))))
  · simp [not_not.1 hrsv, h5, Nat.lt_succ_of_le hsel]
  · exact iff_of_true ⟨_, rfl⟩ (.inr (.inr (.inr (.inr ⟨h5, Nat.lt_of_not_le hsel⟩))))
  · rcases (reservedOpcode_iff (opField w)).1 ⟨h1, h2, h3, h4, h5⟩ with h0 | h6
    · exact iff_of_true ⟨_, rfl⟩ (.inr (.inl h0))
    · exact iff_of_true ⟨_, rfl⟩ (.inr (.inr (.inl h6)))

end Sys2Proof
end

section
/-! O4, O8: the assembler's lines against the decoder (30_encoding.md R61, R70 to R72). -/

namespace Sys2Proof.Machine

/-- A line whose numbers are in range is assembled (R70). -/
theorem requestOf_of_inRange {w hs a b : Nat} (op : BitVec 4) (hhs : hs ≤ 63) (ha : a < 2 ^ w) (hb : b < 2 ^ w) :
    requestOf w hs op a b =
      some { cmd := commandWord 0 (BitVec.ofNat 6 hs) op, opa := zext a, opb := zext b } :=
  if_pos ⟨hhs, ha, hb⟩

/-- A W-bit operand goes on its bus unchanged (R61). -/
theorem zext_toNat_of_lt_two_pow {w n : Nat} (hw : w ≤ 64) (hn : n < 2 ^ w) : (zext n).toNat = n :=
  Nat.mod_eq_of_lt (hn.trans_le (Nat.pow_le_pow_right two_pos hw))

/-- The line's request carries the word of `i` and the operands `a` and `b`. -/
def AssemblesTo (request : Option Request) (i : Instr) (a b : Word) : Prop :=
  ∃ r, request = some r ∧ decode r.cmd = .instr i ∧ r.opa = a ∧ r.opb = b

/-- `{0, HS, OP}` with HS and OP of a well-formed command decodes to it (R57, R70). -/
theorem requestOf_assemblesTo {w a b hs : Nat} {op : BitVec 4} {i : Instr} (hhs : hs ≤ 63) (ha : a < 2 ^ w)
    (hb : b < 2 ^ w) (hi : hsOf i = BitVec.ofNat 6 hs) (hop : opcode i = op) (hwf : i.wellFormed = true) :
    AssemblesTo (requestOf w hs op a b) i (zext a) (zext b) := by
  refine ⟨_, requestOf_of_inRange _ hhs ha hb, ?_, rfl, rfl⟩
  rw [← hi, ← hop]
  exact decode_encode hwf

/-- The operands as numbers, for a width of at most 64. -/
theorem AssemblesTo.toNat {request : Option Request} {i : Instr} {w a b : Nat}
    (h : AssemblesTo request i (zext a) (zext b)) (hw : w ≤ 64) (ha : a < 2 ^ w) (hb : b < 2 ^ w) :
    ∃ r, request = some r ∧ decode r.cmd = .instr i ∧ r.opa.toNat = a ∧ r.opb.toNat = b := by
  obtain ⟨r, hr, hd, hopa, hopb⟩ := h
  exact ⟨r, hr, hd, by rw [hopa, zext_toNat_of_lt_two_pow hw ha], by rw [hopb, zext_toNat_of_lt_two_pow hw hb]⟩

/-- Settles O8: each line, its pseudo-command expanded, is a `requestOf`. -/
theorem assembledLinesDecode : Obligations.AssembledLinesDecode := by
  intro w h a b hob hw hh ha hb
  have hz : 0 < 2 ^ w := Nat.two_pow_pos w
  have hilv : AssemblesTo (requestOf w h 0x1 a b) (.ilv (BitVec.ofNat 6 h)) (zext a) (zext b) :=
    requestOf_assemblesTo hh ha hb rfl rfl rfl
  have hval : AssemblesTo (requestOf w h 0x2 a b) (.val (BitVec.ofNat 6 h)) (zext a) (zext b) :=
    requestOf_assemblesTo hh ha hb rfl rfl rfl
  have hgen : AssemblesTo (requestOf w 0 0x3 0 0) .gen (zext 0) (zext 0) :=
    requestOf_assemblesTo (Nat.zero_le _) hz hz rfl rfl rfl
  have hrdl : AssemblesTo (requestOf w 0 0x4 a b) .rdl (zext a) (zext b) :=
    requestOf_assemblesTo (Nat.zero_le _) ha hb rfl rfl rfl
  have hrdr : ∀ sel ≤ 10, AssemblesTo (requestOf w sel 0x5 0 0) (.rdr (BitVec.ofNat 6 sel)) (zext 0) (zext 0) :=
    fun sel hsel => requestOf_assemblesTo (by omega) hz hz rfl rfl
      (by simpa [Instr.wellFormed] using (Nat.mod_le _ _).trans hsel)
  exact ⟨hilv.toNat hw ha hb, hval.toNat hw ha hb, hgen, hrdl.toNat hw ha hb, hrdr h, hrdr 0 (Nat.zero_le _),
    hval.toNat hw ha hb, hilv.toNat hw ha hb, rfl, rfl⟩

/-- Settles O4: the table of R72 is fixed text and fixed words, which the assembler and the decoder evaluate. -/
theorem exampleEncodings : Obligations.ExampleEncodings := by
  unfold Obligations.ExampleEncodings
  decide +kernel

end Sys2Proof.Machine
end

section
/-! O9, O10, O11, O40: the accepted word is performed and answered (30_encoding.md R63, R67, R68, 60_exceptions.md
R118 to R120). -/

namespace Sys2Proof.Machine

/-! ### Performing a word -/

theorem performCommand_of_instr {s : State} {i : Instr} (h : decode s.request.cmd = .instr i) :
    performCommand s = exec i s := by
  rw [performCommand, h]

theorem performCommand_of_illegal {s : State} {why : Illegal} (h : decode s.request.cmd = .illegal why) :
    performCommand s = illegalCommand s := by
  rw [performCommand, h]

theorem illegalCommand_of_serving {s : State} (h : s.phase ≠ .fault) :
    illegalCommand s = .next (s.faulted .illegalCmd s.request.opa s.request.opb 0) :=
  unlessFaulted_of_serving h _

theorem illegalCommand_of_fault {s : State} (h : s.phase = .fault) : illegalCommand s = .next (s.answered true 0) :=
  unlessFaulted_of_fault h _

/-- In FAULT every word is rejected but a legal RDR's (R120). -/
theorem performCommand_of_fault {s : State} (hf : s.phase = .fault)
    (h : ∀ sel, decode s.request.cmd ≠ .instr (.rdr sel)) : performCommand s = .next (s.answered true 0) := by
  cases hd : decode s.request.cmd with
  | illegal why => exact (performCommand_of_illegal hd).trans (illegalCommand_of_fault hf)
  | instr i =>
    rw [performCommand_of_instr hd]
    exact exec_of_fault hf fun sel e => h sel (e ▸ hd)

/-- With nothing scheduled the block performs what it has accepted (log 4). -/
theorem step_of_turns_nil {s : State} (hl : s.cfg.legal = true) (hp : s.port = .accepted) (ht : s.turns = []) :
    step s = performCommand s := by
  have hpop : popTurn s = s := with_turns_eq_self (by rw [ht]; rfl)
  simp [step, hl, nextTurn, ht, hpop, hp, takeTurn, performTurn]

/-- Settles O9: the block's turn performs the word, and performing a legal word is exec. -/
theorem stepRunsDecodedCommand : Obligations.StepRunsDecodedCommand := by
  intro s i hl hp hd
  refine ⟨fun rest ht => ?_, fun ht => ?_⟩
  · exact (step_perform hl hp ht).trans (performCommand_of_instr hd)
  · exact (step_of_turns_nil hl hp ht).trans (performCommand_of_instr hd)

/-- The decoder on a table row of the full 16 bits is decode. -/
theorem decode_of_decodeTableWord {w : Nat} {i : Instr} (hw : w < 2 ^ 16) (h : decodeTableWord 16 w = some i) :
    decode (BitVec.ofNat 16 w) = .instr i := by
  rw [decodeTableWord, if_pos le_rfl, Nat.mod_eq_of_lt hw] at h
  split at h
  · next hd => rw [hd, Option.some.inj h]
  · simp at h

/-- Settles O10: placing a word schedules the block's turn on it. -/
theorem placedWordRunsNext : Obligations.PlacedWordRunsNext := by
  intro s w i hl hw hi
  have hstep := step_perform (s := placeCommand s (BitVec.ofNat 16 w)) hl rfl rfl
  rw [State.withFetchWord, Nat.mod_eq_of_lt hw]
  exact hstep.trans (performCommand_of_instr (decode_of_decodeTableWord hw hi))

/-- Settles O11: performing an illegal word is `illegalCommand`, whose fault is the rejection in FAULT. -/
theorem illegalWordFaults : Obligations.IllegalWordFaults := by
  intro s rest why hl hp ht hd
  rw [step_perform hl hp ht, performCommand_of_illegal (s := { s with turns := rest }) hd]
  exact ⟨fun hs => illegalCommand_of_serving hs, fun hf => illegalCommand_of_fault hf⟩

/-! ### The answer -/

/-- Every accepted word is answered, an error with data 0: a command answers or faults, and a GEN's fill ends (R67,
R68). -/
theorem performCommand_answers {s t : State} (hl : s.cfg.legal = true) (hi : s.LutInv)
    (h : performCommand s = .next t) : ∃ r, t.port = .answering r ∧ (r.err = true → r.data = 0) := by
  rcases performCommand_cases h with ⟨err, v, rfl, herr⟩ | ⟨-, c, a, b, v, -, rfl⟩ | ⟨-, -, rfl⟩
  · exact ⟨_, rfl, fun e => (herr e).1⟩
  · exact ⟨_, rfl, fun _ => rfl⟩
  · obtain ⟨c, hrun⟩ := genStart_some_running hl hi
    rcases genCells_ends hrun with ⟨lut, draws, he, -⟩ | ⟨i, j, -, -, -, -, -, he⟩
    · exact ⟨_, by rw [he], fun _ => rfl⟩
    · exact ⟨_, by rw [he, faulted_port], fun _ => rfl⟩

/-- GEN answers with data 0 in every phase (R67). -/
theorem performCommand_gen_data {s t : State} (hp : s.port = .accepted) (hd : decode s.request.cmd = .instr .gen)
    (h : performCommand s = .next t) {r : Response} (hr : t.port = .answering r) : r.data = 0 := by
  rw [performCommand_of_instr hd] at h
  by_cases he : s.phase = .empty
  · rw [exec_gen_of_empty he] at h
    obtain rfl := Host.Outcome.next.inj h
    rcases (genCells_outline he _).ending with ⟨-, hq, -⟩ | ⟨-, -, hq, -⟩ | ⟨-, -, hq, -⟩
    · exact absurd (hr.symm.trans (hq.trans hp)) (by simp)
    · rw [← Port.answering.inj (hq.symm.trans hr)]
    · rw [← Port.answering.inj (hq.symm.trans hr)]
  · obtain ⟨err, hx, -⟩ := execGen_of_not_empty he
    obtain rfl := Host.Outcome.next.inj (hx.symm.trans h)
    rw [← Port.answering.inj hr]

/-- An answer without error that leaves FAULT is an RDR's (R120). -/
theorem performCommand_rdr_of_fault {s t : State} (hf : s.phase = .fault) (h : performCommand s = .next t)
    {r : Response} (hr : t.port = .answering r) (he : r.err = false) :
    ∃ sel, decode s.request.cmd = .instr (.rdr sel) := by
  by_contra hno
  rw [performCommand_of_fault hf fun sel hd => hno ⟨sel, hd⟩] at h
  obtain rfl := Host.Outcome.next.inj h
  rw [← Port.answering.inj hr] at he
  simp at he

/-- Settles O40: there is an answer, and `PhaseStep.answer_phase` says what it tells of PHASE. -/
theorem everyCommandIsAnswered : Obligations.EveryCommandIsAnswered := by
  intro s rest hl hi hp ht
  obtain ⟨t, hs⟩ := step_next hl hi
  have hx : performCommand { s with turns := rest } = .next t := (step_perform hl hp ht).symm.trans hs
  obtain ⟨r, hr, hdata⟩ := performCommand_answers (s := { s with turns := rest }) hl hi hx
  obtain ⟨hbad, hgood⟩ := (performCommand_phaseStep (s := { s with turns := rest }) hp hx).answer_phase hp hr
  refine ⟨t, r, hs, hr, fun e => ⟨hdata e, hbad e⟩, fun e => ⟨fun hd => ?_, fun hf => ?_⟩⟩
  · exact performCommand_gen_data (s := { s with turns := rest }) hp hd hx hr
  · have hphase := (hgood e).symm.trans hf
    split at hphase
    · simp at hphase
    · exact performCommand_rdr_of_fault (s := { s with turns := rest }) hphase hx hr e

end Sys2Proof.Machine
end

section
/-! O46 to O49, O57: the port (30_encoding.md R55, R56, R68, 70_reset_and_hazards.md R135, R139 to R141). -/

namespace Sys2Proof.Machine

/-! ### Clock edges -/

theorem outputs_reqReady_iff (s : State) : s.outputs.reqReady = true ↔ s.port = .ready := by
  simp [State.outputs]

theorem outputs_reqReady_false_iff (s : State) : s.outputs.reqReady = false ↔ s.port ≠ .ready := by
  simp [State.outputs]

theorem response_of_answering {s : State} {r : Response} (h : s.port = .answering r) : s.response = some r := by
  simp [State.response, h]

theorem response_of_accepted {s : State} (h : s.port = .accepted) : s.response = none := by
  simp [State.response, h]

theorem step_handshake {s : State} {i : PortInputs} {rest : List Turn} (hl : s.cfg.legal = true)
    (ht : s.turns = .edge i :: rest) (hrst : i.rst = false) :
    step s = .next (handshake i { s with turns := rest }) := by
  simp [step_edge hl ht, clockEdge, hrst]

theorem step_resetEdge {s : State} {i : PortInputs} {rest : List Turn} (hl : s.cfg.legal = true)
    (ht : s.turns = .edge i :: rest) (hrst : i.rst = true) : step s = .next (resetEdge { s with turns := rest }) := by
  simp [step_edge hl ht, clockEdge, hrst]

/-- With req_ready = 0 an edge looks at rsp_ready alone (R56 item 2, R141). -/
theorem handshake_congr_of_not_ready {s : State} (h : s.port ≠ .ready) {i i' : PortInputs}
    (hi : i'.rspReady = i.rspReady) : handshake i' s = handshake i s := by
  unfold handshake
  cases hp : s.port with
  | ready => exact absurd hp h
  | closed => rfl
  | accepted => rfl
  | answering r => simp only [hi]

/-- With req_ready = 0 an edge samples nothing and accepts nothing. -/
theorem handshake_accepts_nothing {s : State} (h : s.port ≠ .ready) (i : PortInputs) :
    (handshake i s).request = s.request ∧ ((handshake i s).port = .accepted → s.port = .accepted) := by
  rcases handshake_cases i s with ⟨-, e⟩ | ⟨hr, -⟩ | ⟨r, -, -, e⟩ | e
  · simp [e]
  · exact absurd hr h
  · simp [e]
  · simp [e]

/-- Settles O46, by the port before the edge. -/
theorem acceptanceSamplesTheBuses : Obligations.AcceptanceSamplesTheBuses := by
  intro s i rest hl ht hrst
  rw [outputs_reqReady_iff, outputs_reqReady_false_iff, step_handshake hl ht hrst]
  refine ⟨fun hr hv => ?_, fun hr hv => ?_, fun hr => ⟨?_, fun i' hrst' hrsp => ?_⟩, fun j j' hj hj' => ?_⟩
  · simp [handshake, hr, hv, sample]
  · simp [handshake, hr, hv]
  · rintro t h
    obtain rfl := Host.Outcome.next.inj h
    exact handshake_accepts_nothing (s := { s with turns := rest }) hr i
  · rw [step_handshake (s := { s with turns := .edge i' :: rest }) hl rfl hrst']
    exact congrArg _ (handshake_congr_of_not_ready (s := { s with turns := rest }) hr hrsp)
  · rw [step_resetEdge (s := { s with turns := .edge j :: rest }) hl rfl hj,
      step_resetEdge (s := { s with turns := .edge j' :: rest }) hl rfl hj']
    exact ⟨rfl, _, rfl, rfl⟩

/-- Settles O47: an edge without rsp_ready leaves the state, one with it moves the response to the host. -/
theorem responseHeldUntilTaken : Obligations.ResponseHeldUntilTaken := by
  intro s i rest r hl ht hrst hp
  have hresp := response_of_answering hp
  rw [step_handshake hl ht hrst]
  refine ⟨by simp [State.outputs, hresp], hresp, by simp [State.outputs, hp], fun hn => ?_, fun hy => ?_⟩
  · simp [handshake, hp, hn]
  · exact ⟨_, rfl, by simp [handshake, hp, hy], by simp [handshake, hp, hy, State.outputs]⟩

/-- Settles O49: a GEN in progress stands accepted, so neither req_ready nor rsp_valid is 1. -/
theorem outputsFollowTheState : Obligations.OutputsFollowTheState := by
  intro s
  refine ⟨by simp [State.outputs], by simp [State.outputs], generating_iff s, fun hb => ?_, fun ⟨hreq, hrsp⟩ => ?_⟩
  · obtain ⟨hp, -⟩ := (generating_iff s).1 hb
    simp [State.outputs, hp, response_of_accepted hp]
  · have hp := (outputs_reqReady_iff s).1 hreq
    simp [State.outputs, State.response, hp] at hrsp

/-! ### One command outstanding -/

/-- What a step from `s` to `t` that is no reset does to the port and to what the host has received (R56, R140). -/
inductive PortStep (s t : State) : Prop where
  /-- the port waits -/
  | waits (port : t.port = s.port) (received : t.received = s.received)
  /-- the first edge after a reset -/
  | opens (before : s.port = .closed) (port : t.port = .ready) (received : t.received = s.received)
  /-- a request is accepted -/
  | accepts (before : s.port = .ready) (port : t.port = .accepted) (received : t.received = s.received)
  /-- the accepted command is answered -/
  | answers (r : Response) (before : s.port = .accepted) (port : t.port = .answering r)
      (received : t.received = s.received)
  /-- the host takes the response -/
  | taken (r : Response) (before : s.port = .answering r) (port : t.port = .ready)
      (received : t.received = s.received ++ [r])

theorem handshake_portStep (i : PortInputs) (s : State) : PortStep s (handshake i s) := by
  rcases handshake_cases i s with ⟨hp, e⟩ | ⟨hp, -, e⟩ | ⟨r, hp, -, e⟩ | e <;> rw [e]
  · exact .opens hp rfl rfl
  · exact .accepts hp rfl rfl
  · exact .taken r hp rfl rfl
  · exact .waits rfl rfl

/-- One cell step of a GEN in EMPTY, in outline. -/
theorem genCell_genStart_outline {s : State} (h : s.phase = .empty) : FillOutline s (genCell (genStart s)) := by
  obtain ⟨-, -, -, -, hphase, -⟩ := genStart_frame s
  exact (genStart_outline h).cell (hphase.trans h)

theorem FillOutline.portStep {s t : State} (h : FillOutline s t) (hp : s.port = .accepted) : PortStep s t := by
  rcases h.ending with ⟨-, hq, -⟩ | ⟨-, -, hq, -⟩ | ⟨-, -, hq, -⟩
  · exact .waits hq h.received
  · exact .answers _ hp hq h.received
  · exact .answers _ hp hq h.received

theorem performCommand_portStep {s t : State} (hp : s.port = .accepted) (h : performCommand s = .next t) :
    PortStep s t := by
  rcases performCommand_cases h with ⟨err, v, rfl, -⟩ | ⟨-, c, a, b, v, -, rfl⟩ | ⟨he, -, rfl⟩
  · exact .answers _ hp rfl rfl
  · exact .answers _ hp rfl rfl
  · exact (genCells_outline he _).portStep hp

/-- Every step that is no reset. -/
theorem step_portStep {s t : State} (h : step s = .next t) (hr : s.resetNext = false) : PortStep (popTurn s) t := by
  obtain ⟨-, ⟨hr', -⟩ | ⟨-, i, -, rfl⟩ | ⟨-, hp, hx⟩ | ⟨-, hg, rfl⟩ | ⟨-, rfl⟩⟩ := step_cases h
  · simp [hr] at hr'
  · exact handshake_portStep i _
  · exact performCommand_portStep hp hx
  · obtain ⟨hp, he, -⟩ := (generating_iff (popTurn s)).1 hg
    exact (genCell_genStart_outline he).portStep hp
  · exact .waits rfl rfl

/-- Where the port goes from each of its conditions, and what the host has received (R56, R140). -/
theorem PortStep.port_received {s t : State} (h : PortStep s t) :
    (s.port = .closed → (t.port = .closed ∨ t.port = .ready) ∧ t.received = s.received) ∧
      (s.port = .ready → (t.port = .ready ∨ t.port = .accepted) ∧ t.received = s.received) ∧
      (s.port = .accepted → (t.port = .accepted ∨ ∃ r, t.port = .answering r) ∧ t.received = s.received) ∧
      (∀ r, s.port = .answering r →
        (t.port = .answering r ∧ t.received = s.received) ∨
          (t.port = .ready ∧ t.received = s.received ++ [r])) := by
  cases h with
  | waits port received =>
    exact ⟨fun hp => ⟨.inl (port.trans hp), received⟩, fun hp => ⟨.inl (port.trans hp), received⟩,
      fun hp => ⟨.inl (port.trans hp), received⟩, fun r hp => .inl ⟨port.trans hp, received⟩⟩
  | opens before port received => simp [before, port, received]
  | accepts before port received => simp [before, port, received]
  | answers r before port received => simp [before, port, received]
  | taken r before port received => simp [before, port, received]

/-- Settles O48: a step is a reset, or what it does to the port is a `PortStep`. -/
theorem oneResponsePerCommand : Obligations.OneResponsePerCommand := by
  intro s t h
  refine ⟨fun hr => ?_, fun hr => (step_portStep h hr).port_received⟩
  rw [step_of_resetNext h hr]
  exact ⟨rfl, rfl⟩

/-- Settles O57: the step lemma of R68, one turn at a time. -/
theorem stepKeepsErrorResponsesZero : Obligations.StepKeepsErrorResponsesZero :=
  fun _ _ => step_responseInv

end Sys2Proof.Machine
end

section
/-! O12, O13, O14: the Bit Interleaver and the Index-to-Value Mapper as functions of bits
(40_interleave_mapper.md R75 to R79). -/

namespace Sys2Proof.Machine

/-! ### The closed form (R76) -/

/-- R76: output bit p, for p ≤ h, is bit floor((h − p)/2) of a or of b. -/
theorem getLsbD_bitInterleave (a b : Word) {h : Nat} (hh : h < 64) (p : Nat) :
    (bitInterleave a b h).getLsbD p =
      if h < p then false
      else if (h - p) % 2 = 0 then a.getLsbD ((h - p) / 2)
      else b.getLsbD ((h - p - 1) / 2) := by
  rw [bitInterleave, getLsbD_interleaveFrom a b 32 0 h 0 p hh (by omega)]
  by_cases hp : h < p
  · simp [hp, Nat.not_le.2 hp]
  · by_cases he : (h - p) % 2 = 0
    · simp [hp, Nat.not_lt.1 hp, he]
    · simp [hp, Nat.not_lt.1 hp, he, show (h - p - 1) / 2 = (h - p) / 2 by omega]

/-- Settles O12: the loop's invariant, read at its first cursor. -/
theorem interleaverClosedForm : Obligations.InterleaverClosedForm :=
  fun a b _ p hh => getLsbD_bitInterleave a b hh p

/-- R76, read from the operands' side: a value is an interleaving exactly when each bit that is read stands at its place,
and every place above h is 0. -/
theorem bitInterleave_eq_iff {a b y : Word} {h : Nat} (hh : h < 64) :
    bitInterleave a b h = y ↔
      (∀ k, 2 * k ≤ h → y.getLsbD (h - 2 * k) = a.getLsbD k) ∧
        (∀ k, 2 * k + 1 ≤ h → y.getLsbD (h - (2 * k + 1)) = b.getLsbD k) ∧ y.toNat < 2 ^ (h + 1) := by
  constructor
  · rintro rfl
    refine ⟨fun k hk => ?_, fun k hk => ?_, bitInterleave_lt a b hh (Nat.lt_succ_self h)⟩
    · rw [getLsbD_bitInterleave a b hh, if_neg (by omega), if_pos (by omega), show (h - (h - 2 * k)) / 2 = k by omega]
    · rw [getLsbD_bitInterleave a b hh, if_neg (by omega), if_neg (by omega),
        show (h - (h - (2 * k + 1)) - 1) / 2 = k by omega]
  · rintro ⟨ha, hb, hy⟩
    refine word_ext_bits fun p => ?_
    rw [getLsbD_bitInterleave a b hh]
    split_ifs with hp he
    · exact ((toNat_lt_two_pow_iff y _).1 hy p hp).symm
    · rw [← ha _ (by omega), show h - 2 * ((h - p) / 2) = p by omega]
    · rw [← hb _ (by omega), show h - (2 * ((h - p - 1) / 2) + 1) = p by omega]

/-! ### The properties of BitInterleave (R77) -/

/-- R77: only bits 0 to floor(h/2) of a and 0 to floor((h − 1)/2) of b are read. -/
theorem bitInterleave_congr {a b a' b' : Word} {h : Nat} (hh : h < 64)
    (ha : ∀ k, k ≤ h / 2 → a.getLsbD k = a'.getLsbD k) (hb : ∀ k, 2 * k + 1 ≤ h → b.getLsbD k = b'.getLsbD k) :
    bitInterleave a b h = bitInterleave a' b' h := by
  obtain ⟨ha', hb', hlt⟩ := (bitInterleave_eq_iff (a := a') (b := b') hh).1 rfl
  exact (bitInterleave_eq_iff hh).2
    ⟨fun k hk => (ha' k hk).trans (ha k (by omega)).symm, fun k hk => (hb' k hk).trans (hb k hk).symm, hlt⟩

theorem word_ext_below {a a' : Word} {m : Nat} (ha : a.toNat < 2 ^ m) (ha' : a'.toNat < 2 ^ m)
    (h : ∀ k, k < m → a.getLsbD k = a'.getLsbD k) : a = a' := by
  refine word_ext_bits fun k => ?_
  rcases Nat.lt_or_ge k m with hk | hk
  · exact h k hk
  · rw [(toNat_lt_two_pow_iff a m).1 ha k hk, (toNat_lt_two_pow_iff a' m).1 ha' k hk]

/-- R77: restricted to the bits that are read, every value below 2^(h+1) is the interleaving of some a and b. -/
theorem bitInterleave_surjective {y : Word} {h : Nat} (hh : h < 64) (hy : y.toNat < 2 ^ (h + 1)) :
    ∃ a b : Word, a.toNat < 2 ^ ((h + 2) / 2) ∧ b.toNat < 2 ^ ((h + 1) / 2) ∧ bitInterleave a b h = y := by
  obtain ⟨a, ha⟩ := exists_word_of_bits fun k => decide (2 * k ≤ h) && y.getLsbD (h - 2 * k)
  obtain ⟨b, hb⟩ := exists_word_of_bits fun k => decide (2 * k + 1 ≤ h) && y.getLsbD (h - (2 * k + 1))
  refine ⟨a, b, (toNat_lt_two_pow_iff _ _).2 fun k hk => ?_, (toNat_lt_two_pow_iff _ _).2 fun k hk => ?_,
    (bitInterleave_eq_iff hh).2 ⟨fun k hk => ?_, fun k hk => ?_, hy⟩⟩
  · simp [ha, show ¬ 2 * k ≤ h by omega]
  · simp [hb, show ¬ 2 * k + 1 ≤ h by omega]
  · rw [ha, decide_eq_true (show k < 64 by omega), decide_eq_true hk, Bool.true_and, Bool.true_and]
  · rw [hb, decide_eq_true (show k < 64 by omega), decide_eq_true hk, Bool.true_and, Bool.true_and]

/-- R77: operands that hold only bits that are read are determined by their interleaving. -/
theorem bitInterleave_injective {a b a' b' : Word} {h : Nat} (hh : h < 64)
    (ha : a.toNat < 2 ^ ((h + 2) / 2)) (hb : b.toNat < 2 ^ ((h + 1) / 2))
    (ha' : a'.toNat < 2 ^ ((h + 2) / 2)) (hb' : b'.toNat < 2 ^ ((h + 1) / 2))
    (h' : bitInterleave a' b' h = bitInterleave a b h) : a' = a ∧ b' = b := by
  obtain ⟨hea, heb, -⟩ := (bitInterleave_eq_iff (a := a) (b := b) hh).1 rfl
  obtain ⟨hea', heb', -⟩ := (bitInterleave_eq_iff hh).1 h'
  exact ⟨word_ext_below ha' ha fun k hk => (hea' k (by omega)).symm.trans (hea k (by omega)),
    word_ext_below hb' hb fun k hk => (heb' k (by omega)).symm.trans (heb k (by omega))⟩

theorem bitInterleave_zero_zero {h : Nat} (hh : h < 64) : bitInterleave 0 0 h = 0 :=
  (bitInterleave_eq_iff hh).2 ⟨by simp, by simp, Nat.two_pow_pos _⟩

/-- R77: with h = 0 only a[0] is read. -/
theorem bitInterleave_of_h_zero (a b : Word) : bitInterleave a b 0 = if a.getLsbD 0 then 1 else 0 := by
  refine (bitInterleave_eq_iff (by omega)).2 ⟨fun k hk => ?_, fun k hk => absurd hk (by omega), ?_⟩
  · obtain rfl : k = 0 := by omega
    cases a.getLsbD 0 <;> rfl
  · cases a.getLsbD 0 <;> decide

/-- Every h below 64 is an HS field (R59). -/
theorem hs_toNat {h : Nat} (hh : h < 64) : (BitVec.ofNat 6 h).toNat = h :=
  (BitVec.toNat_ofNat h 6).trans (Nat.mod_eq_of_lt hh)

/-- ILV below the width answers the interleaving and changes nothing else (R80). -/
theorem exec_ilv_of_lt {s : State} {h : BitVec 6} (hp : s.phase ≠ .fault) (hw : h.toNat < s.cfg.W) :
    exec (.ilv h) s = .next (s.answered false (bitInterleave s.request.opa s.request.opb h.toNat)) :=
  evaluateBelowWidth_of_lt hp hw _

/-- Settles O13: each property is read off the place of each bit. -/
theorem interleaverProperties : Obligations.InterleaverProperties := by
  intro h hh
  refine ⟨fun a b => bitInterleave_lt a b hh (Nat.lt_succ_self h), fun a b a' b' => bitInterleave_congr hh,
    fun y hy => ?_, bitInterleave_zero_zero hh, bitInterleave_of_h_zero,
    fun s hp hw => ⟨_, exec_ilv_of_lt hp (by rwa [hs_toNat hh])⟩⟩
  obtain ⟨a, b, ha, hb, rfl⟩ := bitInterleave_surjective hh hy
  exact ⟨a, b, ⟨ha, hb, rfl⟩, fun a' b' ha' hb' => bitInterleave_injective hh ha hb ha' hb'⟩

/-! ### The properties of ValueAt (R79) -/

theorem valueAt_self (i : Word) (h : Nat) : valueAt i i h = bitInterleave 0 i h :=
  congrArg (fun a => bitInterleave a i h) BitVec.xor_self

theorem valueAt_zero_left (j : Word) (h : Nat) : valueAt 0 j h = bitInterleave j 0 h :=
  congrArg (fun a => bitInterleave a 0 h) BitVec.zero_xor

/-- R79: only bits 0 to floor(h/2) of i and j are read. -/
theorem valueAt_congr {i j i' j' : Word} {h : Nat} (hh : h < 64)
    (hi : ∀ k, k ≤ h / 2 → i.getLsbD k = i'.getLsbD k) (hj : ∀ k, k ≤ h / 2 → j.getLsbD k = j'.getLsbD k) :
    valueAt i j h = valueAt i' j' h :=
  bitInterleave_congr hh (fun k hk => by rw [BitVec.getLsbD_xor, BitVec.getLsbD_xor, hi k hk, hj k hk])
    fun k hk => hi k (by omega)

theorem xor_lt_two_pow {a b : Word} {m : Nat} (ha : a.toNat < 2 ^ m) (hb : b.toNat < 2 ^ m) :
    (a ^^^ b).toNat < 2 ^ m := by
  rw [BitVec.toNat_xor]
  exact Nat.xor_lt_two_pow ha hb

theorem xor_xor_self_left (i j : Word) : i ^^^ (i ^^^ j) = j := by
  rw [← BitVec.xor_assoc, BitVec.xor_self, BitVec.zero_xor]

/-- R79: at h = 2B − 1 both operands of the interleaver are B bits wide, and (i, j) → (i ^ j, i) is a bijection. -/
theorem valueAt_bijective {B : Nat} (hB : 1 ≤ B) (hh : 2 * B - 1 < 64) {y : Word} (hy : y.toNat < 4 ^ B) :
    ∃ i j : Word, (i.toNat < 2 ^ B ∧ j.toNat < 2 ^ B ∧ valueAt i j (2 * B - 1) = y) ∧
      ∀ i' j' : Word, i'.toNat < 2 ^ B → j'.toNat < 2 ^ B → valueAt i' j' (2 * B - 1) = y → i' = i ∧ j' = j := by
  have hwa : (2 * B - 1 + 2) / 2 = B := by omega
  have hwb : (2 * B - 1 + 1) / 2 = B := by omega
  have hsize : 4 ^ B = 2 ^ (2 * B - 1 + 1) := by
    rw [Nat.sub_add_cancel (by omega), Nat.pow_mul]
  rw [hsize] at hy
  obtain ⟨a, i, ha, hi, rfl⟩ := bitInterleave_surjective hh hy
  have hai : a.toNat < 2 ^ B := hwa ▸ ha
  have hii : i.toNat < 2 ^ B := hwb ▸ hi
  refine ⟨i, i ^^^ a, ⟨hii, xor_lt_two_pow hii hai, ?_⟩, fun i' j' hi' hj' h' => ?_⟩
  · rw [valueAt, xor_xor_self_left]
  · obtain ⟨rfl, rfl⟩ := bitInterleave_injective hh ha hi (hwa.symm ▸ xor_lt_two_pow hi' hj') (hwb.symm ▸ hi') h'
    exact ⟨rfl, (xor_xor_self_left _ _).symm⟩

/-- Settles O14: the interleaver's properties at the operands i ^ j and i. -/
theorem mapperProperties : Obligations.MapperProperties := by
  intro h hh
  refine ⟨fun i j => rfl, fun i j => bitInterleave_lt _ _ hh (Nat.lt_succ_self h), fun i j i' j' => valueAt_congr hh,
    fun i => valueAt_self i h, fun j => valueAt_zero_left j h, bitInterleave_zero_zero hh, ?_⟩
  rintro B hB rfl y hy
  exact valueAt_bijective hB hh hy

end Sys2Proof.Machine
end

section
/-! O15, O16, O32: the commands ILV and VAL, and VAL against GEN and RDL (40_interleave_mapper.md R80 to R82). -/

namespace Sys2Proof.Machine

/-! ### The interleaver at all ones -/

theorem toNat_eq_two_pow_sub_one_iff (a : Word) (w : Nat) :
    a.toNat = 2 ^ w - 1 ↔ ∀ k, a.getLsbD k = decide (k < w) := by
  constructor
  · intro h k
    rw [BitVec.getLsbD, h, Nat.testBit_two_pow_sub_one]
  · intro h
    refine Nat.eq_of_testBit_eq fun k => ?_
    rw [Nat.testBit_two_pow_sub_one]
    exact h k

/-- R80: at h = W − 1 every output bit is read from an operand bit below W, so all ones give all ones. -/
theorem bitInterleave_all_ones {a b : Word} {h w : Nat} (hh : h < 64) (hw : h + 1 = w) (ha : a.toNat = 2 ^ w - 1)
    (hb : b.toNat = 2 ^ w - 1) : (bitInterleave a b h).toNat = 2 ^ w - 1 := by
  rw [toNat_eq_two_pow_sub_one_iff] at ha hb ⊢
  intro p
  rw [getLsbD_bitInterleave a b hh]
  split_ifs with hp he
  · exact (decide_eq_false (by omega)).symm
  · rw [ha]; exact decide_eq_decide.2 (by omega)
  · rw [hb]; exact decide_eq_decide.2 (by omega)

/-! ### Words -/

/-- R60, R64: a word with a reserved bit set is illegal. -/
theorem illegal_of_rsvField {w : BitVec 16} (h : rsvField w ≠ 0) : ∃ why, decode w = .illegal why :=
  (reservedEncodingsAreIllegal w).2 (.inl h)

/-- R62: the word of ILV and its row of the match and mask table. -/
theorem encode_ilv (h : BitVec 6) :
    encode (.ilv h) = (0#6 ++ h) ++ 1#4 ∧ encode (.ilv h) &&& 0xFC0F = 0x0001 :=
  have ⟨_, _, _, hfits⟩ := Laws.FormatFields.ilv h
  ⟨BitVec.setWidth_eq _, ((OpcodeRow.fits_iff _ _).1 (hfits rfl)).1⟩

/-- R62: the word of VAL and its row of the match and mask table. -/
theorem encode_val (h : BitVec 6) :
    encode (.val h) = (0#6 ++ h) ++ 2#4 ∧ encode (.val h) &&& 0xFC0F = 0x0002 :=
  have ⟨_, _, _, hfits⟩ := Laws.FormatFields.val h
  ⟨BitVec.setWidth_eq _, ((OpcodeRow.fits_iff _ _).1 (hfits rfl)).1⟩

/-! ### ILV -/

theorem exec_ilv_of_ge {s : State} {h : BitVec 6} (hp : s.phase ≠ .fault) (hw : s.cfg.W ≤ h.toNat) :
    exec (.ilv h) s = .next (s.faulted .hobRange s.request.opa s.request.opb (zext h.toNat)) :=
  evaluateBelowWidth_of_ge hp hw _

theorem exec_ilv_of_eq {s : State} {h : BitVec 6} {v : Word} (hp : s.phase ≠ .fault) (hw : h.toNat < s.cfg.W)
    (hv : bitInterleave s.request.opa s.request.opb h.toNat = v) : exec (.ilv h) s = .next (s.answered false v) :=
  hv ▸ exec_ilv_of_lt hp hw

/-- Settles O15: below the width ILV answers the interleaving, whose corner cases are the interleaver's. -/
theorem ilvBehaviour : Obligations.IlvBehaviour := by
  intro s h
  obtain ⟨hword, hmask⟩ := encode_ilv h
  refine ⟨⟨hword, hmask, fun w => illegal_of_rsvField⟩, fun hp hw => ?_, exec_ilv_of_ge,
    fun hf => exec_of_fault hf (by simp)⟩
  refine ⟨exec_ilv_of_lt hp hw, bitInterleave_lt _ _ h.isLt (Nat.lt_succ_self _), ?_, ?_, ?_, ?_, ?_, ?_⟩
  · rintro rfl
    exact exec_ilv_of_eq hp hw (bitInterleave_of_h_zero _ _)
  · intro ha hb
    exact exec_ilv_of_eq hp hw (by rw [ha, hb]; exact bitInterleave_zero_zero h.isLt)
  · intro htop ha hb
    exact ⟨_, exec_ilv_of_lt hp hw, bitInterleave_all_ones h.isLt htop ha hb⟩
  · intro hab
    exact exec_ilv_of_eq hp hw (by rw [← hab])
  · intro s' hp' hw' ha hb
    exact ⟨_, exec_ilv_of_lt hp hw, exec_ilv_of_eq hp' hw' (bitInterleave_congr h.isLt ha hb).symm⟩
  · rintro rfl ha hb
    exact exec_ilv_of_eq hp hw (by rw [ha, hb]; decide)

/-! ### VAL -/

theorem exec_val_of_lt {s : State} {h : BitVec 6} (hp : s.phase ≠ .fault) (hw : h.toNat < s.cfg.W) :
    exec (.val h) s = .next (s.answered false (valueAt s.request.opa s.request.opb h.toNat)) :=
  evaluateBelowWidth_of_lt hp hw _

theorem exec_val_of_ge {s : State} {h : BitVec 6} (hp : s.phase ≠ .fault) (hw : s.cfg.W ≤ h.toNat) :
    exec (.val h) s = .next (s.faulted .hobRange s.request.opa s.request.opb (zext h.toNat)) :=
  evaluateBelowWidth_of_ge hp hw _

theorem exec_val_of_eq {s : State} {h : BitVec 6} {v : Word} (hp : s.phase ≠ .fault) (hw : h.toNat < s.cfg.W)
    (hv : valueAt s.request.opa s.request.opb h.toNat = v) : exec (.val h) s = .next (s.answered false v) :=
  hv ▸ exec_val_of_lt hp hw

/-- Settles O16: below the width VAL answers ValueAt, whose corner cases are the mapper's. -/
theorem valBehaviour : Obligations.ValBehaviour := by
  intro s h
  obtain ⟨hword, hmask⟩ := encode_val h
  refine ⟨⟨hword, hmask, fun w => illegal_of_rsvField⟩, fun hp hw => ?_, exec_val_of_ge,
    fun hf => exec_of_fault hf (by simp)⟩
  refine ⟨exec_val_of_lt hp hw, ?_, ?_, ?_, ?_, ?_, ?_⟩
  · intro hab
    exact exec_val_of_eq hp hw (by rw [← hab]; exact valueAt_self _ _)
  · intro ha
    exact exec_val_of_eq hp hw (by rw [ha]; exact valueAt_zero_left _ _)
  · rintro rfl
    exact exec_val_of_eq hp hw (bitInterleave_of_h_zero _ _)
  · intro s' hp' hw' hi hj
    exact ⟨_, exec_val_of_lt hp hw, exec_val_of_eq hp' hw' (valueAt_congr h.isLt hi hj).symm⟩
  · rintro rfl ha hb
    exact exec_val_of_eq hp hw (by rw [ha, hb]; decide)
  · rintro rfl (⟨ha, hb⟩ | ⟨ha, hb⟩) <;> exact exec_val_of_eq hp hw (by rw [ha, hb]; decide)

/-! ### VAL against GEN and RDL (R82) -/

theorem zext_of_toNat (v : Word) : zext v.toNat = v :=
  (BitVec.ofNat_toNat 64 v).trans (BitVec.setWidth_eq v)

/-- R82: the wide value of the cell the operands name is the mapper's value at HOB. -/
theorem wideValue_of_operands (p : Params) (i j : Word) : wideValue p i.toNat j.toNat = valueAt i j p.hob := by
  rw [wideValue, zext_of_toNat, zext_of_toNat]

/-- R95: in TRUNCATE, or when the value fits, the element is the wide value mod 2^TW. -/
theorem elementOf_toNat {p : Params} {i j : Nat} {x : Word} (hx : elementOf p i j x)
    (h : p.overflow = .truncate ∨ (wideValue p i j).toNat < 2 ^ p.TW) :
    x.toNat = (wideValue p i j).toNat % 2 ^ p.TW := by
  obtain ⟨-, hfits, hover⟩ := hx
  rcases Nat.lt_or_ge (wideValue p i j).toNat (2 ^ p.TW) with hlt | hge
  · rw [hfits hlt, Nat.mod_eq_of_lt hlt]
  · obtain ⟨-, htrunc⟩ := hover hge
    rw [htrunc (h.resolve_right (Nat.not_lt.2 hge)), truncTo_toNat]

/-- R32, R99: in DONE, RDL at a cell answers the element R95 gives the cell. -/
theorem exec_rdl_elementOf {s : State} (hi : s.LutInv) (hd : s.phase = .done) (ha : s.request.opa.toNat < s.cfg.N)
    (hb : s.request.opb.toNat < s.cfg.M) :
    ∃ x, exec .rdl s = .next (s.answered false x) ∧
      elementOf s.cfg s.request.opa.toNat s.request.opb.toNat x := by
  obtain ⟨-, -, helem, hfull, -, -⟩ := hi
  obtain ⟨x, hx⟩ := hfull hd _ _ ha hb
  exact ⟨x, execRdl_of_element hd ha hb hx, helem _ _ x ha hb hx⟩

/-- Settles O32: VAL at HOB computes GEN's wide value, and the element RDL answers is that value narrowed. -/
theorem rdlAgreesWithVal : Obligations.RdlAgreesWithVal := by
  intro s hl ha hb
  obtain ⟨-, -, -, hhob⟩ := s.cfg.legal_iff.1 hl
  have hhs : (BitVec.ofNat 6 s.cfg.hob).toNat = s.cfg.hob := hs_toNat (Params.hob_lt_64 hl)
  refine ⟨fun hp => exec_val_of_eq hp (hhs.symm ▸ hhob) ?_, fun hi hd => ?_⟩
  · rw [hhs, wideValue_of_operands]
  · obtain ⟨x, hx, helem⟩ := exec_rdl_elementOf hi hd ha hb
    exact ⟨x, hx, elementOf_toNat helem⟩

end Sys2Proof.Machine
end

section
/-! O2: B, HOB and the table of sizes (41_lut_constructor.md R90). -/

namespace Sys2Proof

/-- A number above 2^(k−1) and at most 2^k has clog2 k: a line of R90's table. -/
theorem clog2_eq_of_between {m k : Nat} (hlo : 2 ^ (k - 1) < m) (hhi : m ≤ 2 ^ k) : clog2 m = k := by
  refine le_antisymm (clog2_le_of_le_two_pow hhi) ?_
  by_contra hlt
  have hpow : 2 ^ clog2 m ≤ 2 ^ (k - 1) := Nat.pow_le_pow_right two_pos (by omega)
  have hm := le_two_pow_clog2 m
  omega

theorem clog2_two_pow (k : Nat) : clog2 (2 ^ k) = k := by
  cases k with
  | zero => rfl
  | succ k => exact clog2_eq_of_between (Nat.pow_lt_pow_right one_lt_two (by omega)) le_rfl

/-- R90: 2^(B−1) < m ≤ 2^B says that 2·m − 1 lies from 2^B up and below 2^(B+1). -/
theorem clog2_eq_log2 {m : Nat} (hm : 1 ≤ m) : clog2 m = Nat.log2 (2 * m - 1) := by
  have hhi := le_two_pow_clog2 m
  have hlo : 2 ^ clog2 m ≤ 2 * m - 1 := by
    cases hB : clog2 m with
    | zero => rw [Nat.pow_zero]; omega
    | succ b =>
      have := two_pow_lt_of_lt_clog2 (x := m) (c := b) (by omega)
      rw [Nat.pow_succ]; omega
  refine ((Nat.log2_eq_iff (by omega)).2 ⟨hlo, ?_⟩).symm
  rw [Nat.pow_succ]; omega

/-! ### Square matrices of a power of two -/

theorem Params.indexBits_of_square {p : Params} {B : Nat} (hN : p.N = 2 ^ B) (hM : p.M = 2 ^ B) : p.indexBits = B := by
  rw [Params.indexBits, hN, hM, max_self, clog2_two_pow]

theorem Params.hob_of_square {p : Params} {B : Nat} (hN : p.N = 2 ^ B) (hM : p.M = 2 ^ B) : p.hob = 2 * B - 1 := by
  rw [Params.hob, Params.indexBits_of_square hN hM]

theorem Params.four_pow_eq_of_square {p : Params} {B : Nat} (hN : p.N = 2 ^ B) (hM : p.M = 2 ^ B) : 4 ^ B = p.N * p.M := by
  rw [hN, hM, ← Nat.mul_pow]

/-! ### HOB -/

theorem Params.hob_of_size_le_one {p : Params} (h : max p.N p.M ≤ 1) : p.hob = 0 := by
  have hB : p.indexBits ≤ 0 := clog2_le_of_le_two_pow h
  rw [Params.hob, Nat.le_zero.1 hB]

/-- Settles O2: B is bracketed by the powers of two beside it, and RDR 4 is CFG_HOB. -/
theorem hobDerivation : Obligations.HobDerivation := by
  refine ⟨fun m => clog2_eq_log2, fun p => ?_, fun m k _ => clog2_eq_of_between, fun p hl => ?_, fun s hl => ?_⟩
  · split
    · next h => exact Params.hob_of_size_le_one h
    · rfl
  · obtain ⟨-, -, -, hhob⟩ := p.legal_iff.1 hl
    exact hhob
  · obtain ⟨-, -, -, -, hread, -⟩ := Machine.rdrReadsEveryRegister s hl
    exact hread

end Sys2Proof
end

section
/-! O18, O19, O20 and the first part of O24: GEN in EMPTY with no fill begun, and GEN in DONE (41_lut_constructor.md
R92 to R98, R104).
`exec_gen_fresh` says once how such a GEN ends. -/

namespace Sys2Proof.Machine

/-- Settles O20: GEN out of EMPTY answers at once, without error out of FAULT. -/
theorem genInDoneWritesNothing : Obligations.GenInDoneWritesNothing := by
  intro s hd
  obtain ⟨err, hx, herr⟩ := execGen_of_not_empty (s := s) (by simp [hd])
  obtain rfl : err = false := by simpa [hd] using herr
  exact hx

/-- GEN in EMPTY with no fill begun completes, or raises RANGE at the first cell that does not fit. -/
theorem exec_gen_fresh {s : State} (hl : s.cfg.legal = true) (he : s.phase = .empty) (hf : s.fill = none) :
    ∃ t, exec .gen s = .next t ∧ (FillDone s t ∨ FillFault s t) :=
  execGen_of_empty he (genStart_running hl hf)

/-! ### The two ends -/

theorem FillDone.phase {s t : State} (h : FillDone s t) : t.phase = .done := by
  obtain ⟨lut, draws, rfl, -⟩ := h; rfl

theorem FillFault.phase {s t : State} (h : FillFault s t) : t.phase = .fault := by
  obtain ⟨i, j, -, -, -, -, -, rfl⟩ := h; rfl

/-- With the check on a completed fill has stored values that fit only (R94). -/
theorem FillDone.fits {s t : State} (h : FillDone s t) (hr : s.cfg.rangeCheck = true) : allFit s.cfg := by
  obtain ⟨lut, draws, -, hF, -⟩ := h
  exact fun i j hi hj => hF.fits hr hi hj trivial

theorem FillFault.rangeCheck {s t : State} (h : FillFault s t) : s.cfg.rangeCheck = true := by
  obtain ⟨i, j, -, -, hr, -⟩ := h; exact hr

theorem FillFault.not_allFit {s t : State} (h : FillFault s t) : ¬ allFit s.cfg := by
  obtain ⟨i, j, hi, hj, -, hv, -⟩ := h
  exact fun hfit => absurd (hfit i j hi hj) (Nat.not_lt.2 hv)

/-- When every value fits or the check is off, the fill has completed. -/
theorem fillDone_of_allFit {s t : State} (h : FillDone s t ∨ FillFault s t)
    (hfit : s.cfg.rangeCheck = true → allFit s.cfg) : FillDone s t :=
  h.resolve_right fun hf => hf.not_allFit (hfit hf.rangeCheck)

/-- A GEN from EMPTY with no fill begun that ends in DONE has completed its fill. -/
theorem fillDone_of_exec_gen {s t : State} (hl : s.cfg.legal = true) (he : s.phase = .empty) (hf : s.fill = none)
    (ht : exec .gen s = .next t) (hd : t.phase = .done) : FillDone s t := by
  obtain ⟨u, hu, hend⟩ := exec_gen_fresh hl he hf
  obtain rfl := Host.Outcome.next.inj (hu.symm.trans ht)
  exact hend.resolve_right fun hfault => by simp [hfault.phase] at hd

/-- R104, first part: with the check on GEN completes exactly when every value fits. -/
theorem exec_gen_done_iff_allFit {s : State} (hl : s.cfg.legal = true) (he : s.phase = .empty) (hf : s.fill = none)
    (hr : s.cfg.rangeCheck = true) : (∃ t, exec .gen s = .next t ∧ t.phase = .done) ↔ allFit s.cfg := by
  constructor
  · rintro ⟨t, ht, hd⟩
    exact (fillDone_of_exec_gen hl he hf ht hd).fits hr
  · intro hfit
    obtain ⟨t, ht, hend⟩ := exec_gen_fresh hl he hf
    exact ⟨t, ht, (fillDone_of_allFit hend fun _ => hfit).phase⟩

/-! ### The whole matrix -/

theorem Filled.read_eq_none {p : Params} {upTo : Nat → Nat → Prop} {lut : Memory} (h : Filled p upTo lut) {k : Nat}
    (hk : p.cells ≤ k) : Memory.read lut k = none := by
  cases hx : Memory.read lut k with
  | none => rfl
  | some x => exact absurd (h.inside k x hx) (Nat.not_lt.2 hk)

/-- A filled matrix has R95's element in every cell. -/
theorem Filled.exists_element {p : Params} {lut : Memory} (h : Filled p (fun _ _ => True) lut) {i j : Nat}
    (hi : i < p.N) (hj : j < p.M) : ∃ x, Memory.read lut (p.flat i j) = some x ∧ elementOf p i j x := by
  obtain ⟨x, hx⟩ := (h.listed i j hi hj).2 trivial
  exact ⟨x, hx, h.element i j x hi hj hx⟩

/-- When every value fits a completed GEN leaves the wide value itself in each cell (R95). -/
theorem FillDone.lutRead_of_allFit {s t : State} (h : FillDone s t) (hfit : allFit s.cfg) {i j : Nat}
    (hi : i < s.cfg.N) (hj : j < s.cfg.M) : lutRead t i j = some (wideValue s.cfg i j) := by
  obtain ⟨lut, draws, rfl, hF, -⟩ := h
  obtain ⟨x, hx, -, hfits, -⟩ := hF.exists_element hi hj
  exact hx.trans (congrArg some (hfits (hfit i j hi hj)))

/-- Settles O18: no cell stops the fill, and no field but those named differs, the cursor being none before and after. -/
theorem genFillsTheMatrix : Obligations.GenFillsTheMatrix := by
  intro s hl he hf hfit
  obtain ⟨t, ht, hend⟩ := exec_gen_fresh hl he hf
  obtain ⟨lut, draws, rfl, hF, hdraws⟩ := fillDone_of_allFit hend hfit
  refine ⟨lut, draws, ?_, fun i j => hF.exists_element, fun k => hF.read_eq_none, hdraws⟩
  rw [ht, ← hf]

/-! ### The first cell that does not fit -/

theorem visitedBefore_trichotomy (i j i' j' : Nat) :
    visitedBefore i j i' j' ∨ (i = i' ∧ j = j') ∨ visitedBefore i' j' i j := by
  simp only [visitedBefore]; omega

/-- Settles O19: the cell at which RANGE was raised can stand neither before nor after the given one. -/
theorem genRangeFaultAtFirstCell : Obligations.GenRangeFaultAtFirstCell := by
  intro s i j hl he hf hr hi hj hv hbefore
  obtain ⟨t, ht, hend⟩ := exec_gen_fresh hl he hf
  rcases hend with hd | ⟨i', j', hi', hj', -, hv', hbefore', rfl⟩
  · exact absurd (hd.fits hr i j hi hj) (Nat.not_lt.2 hv)
  · rcases visitedBefore_trichotomy i j i' j' with hb | ⟨rfl, rfl⟩ | hb
    · exact absurd (hbefore' i j hi hj hb) (Nat.not_lt.2 hv)
    · rw [ht, ← hf]
    · exact absurd (hbefore i' j' hi' hj' hb) (Nat.not_lt.2 hv')

end Sys2Proof.Machine
end

section
/-! O24 to O28: the wide values of the cells, a function of B and the indices (41_lut_constructor.md R93, R100, R101,
R104, R105). -/

namespace Sys2Proof.Machine

/-! ### What a wide value depends on -/

/-- Of the parameters a wide value depends on B alone (R90, R93). -/
theorem wideValue_congr_indexBits {p q : Params} (h : p.indexBits = q.indexBits) (i j : Nat) :
    wideValue p i j = wideValue q i j := by
  rw [wideValue, wideValue, Params.hob, Params.hob, h]

/-- Hence on the sizes alone. -/
theorem wideValue_congr {p q : Params} (hN : p.N = q.N) (hM : p.M = q.M) (i j : Nat) :
    wideValue p i j = wideValue q i j :=
  wideValue_congr_indexBits (by rw [Params.indexBits, Params.indexBits, hN, hM]) i j

theorem matrixOf_congr {p q : Params} (hN : p.N = q.N) (hM : p.M = q.M) : matrixOf p = matrixOf q := by
  simp only [matrixOf, wideValue_congr hN hM, hN, hM]

/-- The reference parameters with other sizes: for the matrices the spec writes out. -/
def sized (N M : Nat) : Params := { Params.reference with N := N, M := M }

/-! ### Wide values are distinct and below 4^B (R101) -/

/-- Cell (0, 0) holds 0, since all index bits are 0. -/
theorem wideValue_zero_zero {p : Params} (hl : p.legal = true) : wideValue p 0 0 = 0 :=
  bitInterleave_zero_zero (Params.hob_lt_64 hl)

/-- With B = 0 the one cell is (0, 0). -/
theorem index_eq_zero {p : Params} (hl : p.legal = true) (hB : p.indexBits = 0) {i : Nat} (hi : i < p.N ∨ i < p.M) :
    i = 0 := by
  obtain ⟨-, hlt⟩ := Params.zext_index hl hi
  rw [hB, Nat.pow_zero] at hlt
  omega

theorem wideValue_lt_four_pow {p : Params} (hl : p.legal = true) {i j : Nat} (hi : i < p.N) (hj : j < p.M) :
    (wideValue p i j).toNat < 4 ^ p.indexBits := by
  by_cases hB : p.indexBits = 0
  · rw [index_eq_zero hl hB (.inl hi), index_eq_zero hl hB (.inr hj), wideValue_zero_zero hl]
    exact Nat.pow_pos (by omega)
  · have hsize : 4 ^ p.indexBits = 2 ^ (p.hob + 1) := by
      rw [Params.hob, Nat.sub_add_cancel (by omega), Nat.pow_mul]
    rw [hsize]
    exact bitInterleave_lt _ _ (Params.hob_lt_64 hl) (Nat.lt_succ_self _)

/-- The mapper is a bijection on B-bit indices (R79), so different cells have different values. -/
theorem wideValue_injective {p : Params} (hl : p.legal = true) {i j i' j' : Nat} (hi : i < p.N) (hj : j < p.M)
    (hi' : i' < p.N) (hj' : j' < p.M) (h : wideValue p i j = wideValue p i' j') : i = i' ∧ j = j' := by
  by_cases hB : p.indexBits = 0
  · exact ⟨(index_eq_zero hl hB (.inl hi)).trans (index_eq_zero hl hB (.inl hi')).symm,
      (index_eq_zero hl hB (.inr hj)).trans (index_eq_zero hl hB (.inr hj')).symm⟩
  · obtain ⟨ei, li⟩ := Params.zext_index hl (.inl hi)
    obtain ⟨ej, lj⟩ := Params.zext_index hl (.inr hj)
    obtain ⟨ei', li'⟩ := Params.zext_index hl (.inl hi')
    obtain ⟨ej', lj'⟩ := Params.zext_index hl (.inr hj')
    obtain ⟨a, b, -, huniq⟩ := valueAt_bijective (Nat.one_le_iff_ne_zero.2 hB) (Params.hob_lt_64 hl)
      (wideValue_lt_four_pow hl hi' hj')
    obtain ⟨ha, hb⟩ := huniq (zext i) (zext j) (by rwa [ei]) (by rwa [ej]) h
    obtain ⟨ha', hb'⟩ := huniq (zext i') (zext j') (by rwa [ei']) (by rwa [ej']) rfl
    exact ⟨by rw [← ei, ← ei', ha, ha'], by rw [← ej, ← ej', hb, hb']⟩

/-- Settles O28: the corner because both matrices have one B, the examples by evaluation. -/
theorem valuesDistinctAndContained : Obligations.ValuesDistinctAndContained := by
  intro p hl
  refine ⟨fun i j => wideValue_lt_four_pow hl, fun i j i' j' => wideValue_injective hl,
    fun i j _ _ => wideValue_congr_indexBits ?_ i j, fun hN hM => ?_, fun hN hM => ?_, fun hN hM => ?_⟩
  · exact (Params.indexBits_of_square rfl rfl).symm
  · exact (matrixOf_congr (q := sized 2 4) hN hM).trans (by decide)
  · exact (matrixOf_congr (q := sized 4 2) hN hM).trans (by decide)
  · exact (matrixOf_congr (q := sized 3 3) hN hM).trans (by decide)

/-! ### Square matrices of a power of two (R100, R104) -/

/-- Every value from 0 to N·M − 1 is the value of a cell: the mapper is onto the 2·B-bit values (R79). -/
theorem exists_wideValue_of_square {p : Params} {B : Nat} (hl : p.legal = true) (hN : p.N = 2 ^ B) (hM : p.M = 2 ^ B)
    {v : Nat} (hv : v < 4 ^ B) : ∃ i j, i < p.N ∧ j < p.M ∧ (wideValue p i j).toNat = v := by
  rcases Nat.eq_zero_or_pos B with rfl | hB
  · refine ⟨0, 0, by omega, by omega, ?_⟩
    rw [wideValue_zero_zero hl, Nat.lt_one_iff.1 hv]
    rfl
  · have hhob : p.hob = 2 * B - 1 := Params.hob_of_square hN hM
    have hlt : 2 * B - 1 < 64 := hhob ▸ Params.hob_lt_64 hl
    have hword : (zext v).toNat = v := zext_toNat_of_lt_two_pow (w := 2 * B) (by omega) (by rwa [Nat.pow_mul])
    obtain ⟨i, j, ⟨hi, hj, hval⟩, -⟩ := valueAt_bijective (y := zext v) hB hlt (by rwa [hword])
    refine ⟨i.toNat, j.toNat, by rwa [hN], by rwa [hM], ?_⟩
    rw [wideValue_of_operands, hhob, hval, hword]

/-- R104: the values fit exactly when the largest one, 4^B − 1, does. -/
theorem allFit_iff_of_square {p : Params} {B : Nat} (hl : p.legal = true) (hN : p.N = 2 ^ B) (hM : p.M = 2 ^ B) :
    allFit p ↔ 2 * B ≤ p.TW := by
  have hpow : 4 ^ B = 2 ^ (2 * B) := by rw [Nat.pow_mul]
  rw [← Nat.pow_le_pow_iff_right (a := 2) (by omega), ← hpow]
  constructor
  · intro hfit
    have hpos : 0 < 4 ^ B := Nat.pow_pos (by omega)
    obtain ⟨i, j, hi, hj, hv⟩ := exists_wideValue_of_square hl hN hM (v := 4 ^ B - 1) (by omega)
    have := hfit i j hi hj
    omega
  · intro hle i j hi hj
    have hlt := wideValue_lt_four_pow hl hi hj
    rw [Params.indexBits_of_square hN hM] at hlt
    exact hlt.trans_le hle

/-- Settles O24: `exec_gen_done_iff_allFit`, and for squares the largest value. -/
theorem genCompletesExactlyWhenValuesFit : Obligations.GenCompletesExactlyWhenValuesFit := by
  intro s hl he hf hr
  have hdone := exec_gen_done_iff_allFit hl he hf hr
  refine ⟨hdone, fun B _ hN hM => ⟨hdone.trans (allFit_iff_of_square hl hN hM), Params.four_pow_eq_of_square hN hM, ?_,
    fun i j hi hj => ?_⟩, fun hN hM => ?_, fun hN hM => ?_⟩
  · exact exists_wideValue_of_square hl hN hM (Nat.sub_lt (Nat.pow_pos (by omega)) one_pos)
  · have hlt := wideValue_lt_four_pow hl hi hj
    rw [Params.indexBits_of_square hN hM] at hlt
    omega
  · have hmax : ∀ i < 3, ∀ j < 3, (wideValue (sized 3 3) i j).toNat ≤ 14 := by decide
    simp only [wideValue_congr (q := sized 3 3) hN hM]
    exact ⟨by decide, fun i j hi hj => hmax i hi j hj⟩
  · simp only [wideValue_congr (q := sized 1 2) hN hM]
    decide

/-- Settles O27: B = 0 is a case of 2·B ≤ TW, and the counterexamples are evaluated. -/
theorem permutationLimits : Obligations.PermutationLimits := by
  refine ⟨fun p B hl hN hM => ?_, fun p => ⟨fun hN hM => ?_, fun hN hM => ?_⟩⟩
  · rw [allFit_iff_of_square hl hN hM]
    omega
  · simp only [wideValue_congr (q := sized 1 2) hN hM]
    decide
  · rw [wideValue_congr (q := sized 3 3) hN hM]
    decide

/-- Settles O26: every value fits, so each cell holds its wide value, and the wide values are 0 to N·M − 1, each once. -/
theorem squareMatrixIsPermutation : Obligations.SquareMatrixIsPermutation := by
  intro s t B hl he hf hN hM hTW ht
  have hfit : allFit s.cfg := (allFit_iff_of_square hl hN hM).2 hTW
  obtain ⟨u, hu, hend⟩ := exec_gen_fresh hl he hf
  obtain rfl := Host.Outcome.next.inj (hu.symm.trans ht)
  have hd := fillDone_of_allFit hend fun _ => hfit
  refine ⟨hd.phase, fun v hv => ?_⟩
  rw [← Params.four_pow_eq_of_square hN hM] at hv
  obtain ⟨i, j, hi, hj, hval⟩ := exists_wideValue_of_square hl hN hM hv
  refine ⟨i, j, ⟨hi, hj, _, hd.lutRead_of_allFit hfit hi hj, hval⟩, fun i' j' hi' hj' ⟨x, hx, hxv⟩ => ?_⟩
  obtain rfl := Option.some.inj ((hd.lutRead_of_allFit hfit hi' hj').symm.trans hx)
  exact wideValue_injective hl hi' hj' hi hj (BitVec.eq_of_toNat_eq (hxv.trans hval.symm))

/-- Settles O25: (0, 0) is the one cell before (0, 1), and its value 0 fits. -/
theorem narrowTypeScenario : Obligations.NarrowTypeScenario := by
  intro s hl hN hM hTW hr he hf
  have h00 : wideValue s.cfg 0 0 = 0 := wideValue_zero_zero hl
  have h01 : wideValue s.cfg 0 1 = 32 := (wideValue_congr (q := sized 8 8) hN hM 0 1).trans (by decide)
  refine ⟨h00, h01, ?_⟩
  have hfault := genRangeFaultAtFirstCell s 0 1 hl he hf hr (by omega) (by omega) (by rw [h01, hTW]; decide)
    fun i j _ _ hb => by
      obtain ⟨rfl, rfl⟩ : i = 0 ∧ j = 0 := by simp only [visitedBefore] at hb; omega
      rw [h00, hTW]; decide
  rwa [h01] at hfault

end Sys2Proof.Machine
end

section
/-! O29: self-similarity of the square matrices (41_lut_constructor.md R102). -/

namespace Sys2Proof.Machine

theorem getLsbD_zext {n : Nat} (hn : n < 2 ^ 64) (k : Nat) : (zext n).getLsbD k = n.testBit k := by
  rw [BitVec.getLsbD, zext_toNat hn]

/-- R76 and R78 on B-bit indices: of the 2·B bits of a value, index bit B − 1 − q gives bits 2·q and 2·q + 1. -/
theorem testBit_valueAt {B i j : Nat} (hB : B ≤ 32) (hi : i < 2 ^ B) (hj : j < 2 ^ B) (p : Nat) :
    (valueAt (zext i) (zext j) (2 * B - 1)).toNat.testBit p =
      (decide (p < 2 * B) && (i.testBit (B - 1 - p / 2) ^^ (decide (p % 2 = 1) && j.testBit (B - 1 - p / 2)))) := by
  rcases Nat.eq_zero_or_pos B with rfl | hpos
  · obtain rfl : i = 0 := by omega
    obtain rfl : j = 0 := by omega
    have hzero : valueAt (zext 0) (zext 0) (2 * 0 - 1) = 0 := bitInterleave_zero_zero (by omega)
    rw [hzero]
    simp
  · have hword : 2 ^ B < 2 ^ 64 := Nat.pow_lt_pow_right one_lt_two (by omega)
    rw [← BitVec.getLsbD, valueAt, getLsbD_bitInterleave _ _ (by omega), BitVec.getLsbD_xor,
      getLsbD_zext (hi.trans hword), getLsbD_zext (hi.trans hword), getLsbD_zext (hj.trans hword)]
    split_ifs with hp hodd
    · simp [show ¬ p < 2 * B by omega]
    · simp [show p < 2 * B by omega, show p % 2 = 1 by omega, show (2 * B - 1 - p) / 2 = B - 1 - p / 2 by omega]
    · simp [show p < 2 * B by omega, show p % 2 = 0 by omega,
        show (2 * B - 1 - p - 1) / 2 = B - 1 - p / 2 by omega]

/-- Index bit k makes the two lowest bits of a value, and the index bits below it the rest, as at k bits. -/
theorem valueAt_split {k i j : Nat} (hk : k < 32) (hi : i < 2 ^ (k + 1)) (hj : j < 2 ^ (k + 1)) :
    (valueAt (zext i) (zext j) (2 * (k + 1) - 1)).toNat =
      4 * (valueAt (zext (i % 2 ^ k)) (zext (j % 2 ^ k)) (2 * k - 1)).toNat +
        (valueAt (zext (i / 2 ^ k)) (zext (j / 2 ^ k)) (2 * 1 - 1)).toNat := by
  have hmod (n : Nat) : n % 2 ^ k < 2 ^ k := Nat.mod_lt _ (Nat.two_pow_pos k)
  have hdiv {n : Nat} (hn : n < 2 ^ (k + 1)) : n / 2 ^ k < 2 ^ 1 :=
    Nat.div_lt_of_lt_mul (by rwa [← Nat.pow_add])
  have hlow : (valueAt (zext (i / 2 ^ k)) (zext (j / 2 ^ k)) (2 * 1 - 1)).toNat < 2 ^ 2 :=
    bitInterleave_lt _ _ (by omega) (by omega)
  refine Nat.eq_of_testBit_eq fun p => ?_
  rw [show 4 = 2 ^ 2 from rfl, Nat.testBit_two_pow_mul_add _ hlow, testBit_valueAt (by omega) hi hj,
    testBit_valueAt (by omega) (hmod i) (hmod j), testBit_valueAt (by omega) (hdiv hi) (hdiv hj)]
  simp only [Nat.testBit_mod_two_pow, Nat.testBit_div_two_pow]
  split_ifs with hp
  · simp [hp, show p < 2 * (k + 1) by omega, show p / 2 = 0 by omega]
  · by_cases htop : p < 2 * (k + 1)
    · simp [htop, show p - 2 < 2 * k by omega, show (p - 2) % 2 = p % 2 by omega,
        show k - 1 - (p - 2) / 2 = k - p / 2 by omega, show k - p / 2 < k by omega]
    · simp [htop, show ¬ p - 2 < 2 * k by omega]

theorem wideValue_of_square {p : Params} {B : Nat} (hN : p.N = 2 ^ B) (hM : p.M = 2 ^ B) (i j : Nat) :
    wideValue p i j = valueAt (zext i) (zext j) (2 * B - 1) := by
  rw [wideValue, Params.hob_of_square hN hM]

/-- Settles O29: G_2n, G_n and G_2 have B = k + 1, k and 1, and `valueAt_split` is the rule on their indices. -/
theorem selfSimilarity : Obligations.SelfSimilarity := by
  refine fun p => ⟨(matrixOf_congr (q := sized 2 2) rfl rfl).trans (by decide), fun k i j hl hi hj => ?_⟩
  have hdouble : 2 * 2 ^ k = 2 ^ (k + 1) := (Nat.pow_succ' ..).symm
  have hB := Params.indexBits_le_32 hl
  rw [Params.indexBits_of_square hdouble hdouble] at hB
  rw [wideValue_of_square hdouble hdouble, wideValue_of_square (B := k) rfl rfl, wideValue_of_square (B := 1) rfl rfl]
  exact valueAt_split hB (hdouble ▸ hi) (hdouble ▸ hj)

end Sys2Proof.Machine
end

section
/-! O30, O31: the LUT after GEN is a function of N, M and TW, and RDL reads it (41_lut_constructor.md R99, R103). -/

namespace Sys2Proof.Machine

/-! ### One LUT for one N, M and TW (R103) -/

/-- R95 leaves a cell no choice but an element of ANY. -/
theorem elementOf_unique {p q : Params} (hN : p.N = q.N) (hM : p.M = q.M) (hTW : p.TW = q.TW) {i j : Nat} {x y : Word}
    (h : (p.overflow = .truncate ∧ q.overflow = .truncate) ∨ (wideValue p i j).toNat < 2 ^ p.TW)
    (hx : elementOf p i j x) (hy : elementOf q i j y) : x = y := by
  have hv : wideValue p i j = wideValue q i j := wideValue_congr hN hM i j
  refine BitVec.eq_of_toNat_eq ?_
  calc x.toNat = (wideValue p i j).toNat % 2 ^ p.TW := elementOf_toNat hx (h.imp And.left id)
    _ = (wideValue q i j).toNat % 2 ^ q.TW := by rw [hv, hTW]
    _ = y.toNat := (elementOf_toNat hy (h.imp And.right fun hlt => by rwa [← hv, ← hTW])).symm

/-- Two filled matrices of one size with the same element in every cell are one list. -/
theorem Filled.lut_unique {p q : Params} {lut lut' : Memory} (h : Filled p (fun _ _ => True) lut)
    (h' : Filled q (fun _ _ => True) lut') (hN : p.N = q.N) (hM : p.M = q.M)
    (heq : ∀ i j x y, i < p.N → j < p.M → elementOf p i j x → elementOf q i j y → x = y) : lut = lut' := by
  refine Memory.ext_of_wf h.wf h'.wf fun k => ?_
  rcases Nat.lt_or_ge k p.cells with hk | hk
  · obtain ⟨i, j, hi, hj, rfl⟩ := Params.exists_cell hk
    obtain ⟨x, hx, hxe⟩ := h.exists_element hi hj
    obtain ⟨y, hy, hye⟩ := h'.exists_element (hN ▸ hi) (hM ▸ hj)
    have hflat : p.flat i j = q.flat i j := by rw [Params.flat, Params.flat, hM]
    rw [hx, hflat, hy, heq i j x y hi hj hxe hye]
  · have hcells : p.cells = q.cells := by rw [Params.cells, Params.cells, hN, hM]
    rw [h.read_eq_none hk, h'.read_eq_none (hcells ▸ hk)]

/-- Settles O30: both LUTs are filled, with the one element R95 gives each cell. -/
theorem genIsDeterministic : Obligations.GenIsDeterministic := by
  intro s s' t t' hl hl' hN hM hTW h he he' hf hf' ht ht' hd hd'
  obtain ⟨lut, draws, rfl, hF, -⟩ := fillDone_of_exec_gen hl he hf ht hd
  obtain ⟨lut', draws', rfl, hF', -⟩ := fillDone_of_exec_gen hl' he' hf' ht' hd'
  exact hF.lut_unique hF' hN hM fun i j x y hi hj => elementOf_unique hN hM hTW (h.imp id fun hfit => hfit i j hi hj)

/-! ### RDL (R99) -/

theorem eq_rdl_of_opcode {i : Instr} (h : opcode i = 4) : i = .rdl := by
  cases i <;> simp [opcode] at h ⊢

/-- Of the words with RDL's opcode one is legal (R59, R62). -/
theorem illegal_of_opField_rdl {w : BitVec 16} (hop : opField w = 4) (hw : w ≠ 0x0004) :
    ∃ why, decode w = .illegal why := by
  cases hd : decode w with
  | illegal why => exact ⟨why, rfl⟩
  | instr i =>
    obtain ⟨-, hopi, -⟩ := (decode_eq_instr_iff w i).1 hd
    obtain rfl := eq_rdl_of_opcode (hopi.symm.trans hop)
    exact absurd (encode_of_decode hd).symm hw

/-- In DONE every cell holds the element R95 gives it (R32). -/
theorem State.LutInv.exists_element {s : State} (h : s.LutInv) (hd : s.phase = .done) {i j : Nat} (hi : i < s.cfg.N)
    (hj : j < s.cfg.M) : ∃ x, lutRead s i j = some x ∧ elementOf s.cfg i j x := by
  obtain ⟨-, -, helem, hfull, -⟩ := h
  obtain ⟨x, hx⟩ := hfull hd i j hi hj
  exact ⟨x, hx, helem i j x hi hj hx⟩

/-- Settles O31, by PHASE and then the indices; an answer moves the port only, so a second RDL finds the same cell. -/
theorem rdlBehaviour : Obligations.RdlBehaviour := by
  intro s
  refine ⟨⟨by decide, by decide, fun w => illegal_of_opField_rdl⟩, fun hf => exec_of_fault hf (by simp),
    execRdl_of_empty, execRdl_of_out_of_range, fun hd hi ha hb => ?_⟩
  obtain ⟨x, hx, helem⟩ := hi.exists_element hd ha hb
  refine ⟨x, helem, hx, execRdl_of_element hd ha hb hx, execRdl_of_element (s := s.answered false x) hd ha hb hx,
    fun hN hM hTW hopa hopb => ?_⟩
  have hv : wideValue s.cfg s.request.opa.toNat s.request.opb.toNat = 14 := by
    rw [hopa, hopb, wideValue_congr (q := sized 4 4) hN hM]
    decide
  obtain ⟨-, hfits, -⟩ := helem
  rw [← hv]
  exact hfits (by rw [hv, hTW]; decide)

end Sys2Proof.Machine
end

section
/-! O35: RDR's word, its answer for each sel, and the corner cases of R110 (42_register_access.md). -/

namespace Sys2Proof.Machine

/-! ### Words -/

/-- R62: the word of RDR and its row of the match and mask table, whatever sel is. -/
theorem encode_rdr (sel : BitVec 6) :
    encode (.rdr sel) = (0#6 ++ sel) ++ 5#4 ∧ encode (.rdr sel) &&& 0xFC0F = 0x0005 := by
  have hrsv : rsvField 0x0005#16 = 0 := by decide
  have hhs : hsField 0xFC0F#16 = 0 ∧ hsField 0x0005#16 = 0 := by decide
  have hop : opField 0xFC0F#16 = BitVec.allOnes 4 ∧ opField 0x0005#16 = 5 := by decide
  refine ⟨BitVec.setWidth_eq _, word_eq_iff.2 ⟨?_, ?_, ?_⟩⟩
  · simp [encode, hrsv]
  · simp [encode, hhs]
  · simp [encode, opcode, hop]

/-- R65: no word carries a reserved sel. -/
theorem illegal_of_reserved_sel {sel : BitVec 6} (h : 11 ≤ sel.toNat) :
    ∃ why, decode (encode (.rdr sel)) = .illegal why :=
  (reservedEncodingsAreIllegal _).2
    (.inr (.inr (.inr (.inr ⟨by simp [encode, opcode], by simpa [encode, hsOf] using h⟩))))

/-! ### Answers -/

/-- The model's reading of a reserved sel (log 20): it names no register. -/
theorem exec_rdr_of_reserved {s : State} {sel : BitVec 6} (h : 11 ≤ sel.toNat) :
    exec (.rdr sel) s = illegalCommand s := by
  have hnone : readRegister s sel = none :=
    Option.not_isSome_iff_eq_none.1 fun hsome => Nat.not_le_of_lt h ((readRegister_isSome s sel).1 hsome)
  simp [exec, execRdr, hnone]

/-- R31: out of FAULT the fault record is clear, and RDR answers 0 for each of its registers. -/
theorem exec_rdr_faultRecord_of_serving {s : State} {sel : BitVec 6} (hrec : s.FaultRecordInv) (hp : s.phase ≠ .fault)
    (h7 : 7 ≤ sel.toNat) (h10 : sel.toNat ≤ 10) : exec (.rdr sel) s = .next (s.answered false 0) := by
  obtain ⟨hclear, -⟩ := hrec
  obtain ⟨-, hcmd, ha, hb, hv⟩ := hclear hp
  exact exec_rdr_of_readRegister (readRegister_of_clear hcmd ha hb hv h7 h10)

/-- R28: STATUS after an ILLEGAL_CMD fault. -/
theorem statusWord_of_illegalCmd {s : State} (hp : s.phase = .fault) (hc : s.cause = .illegalCmd) :
    statusWord s = 0x22 :=
  BitVec.eq_of_toNat_eq (by rw [statusWord_toNat, hp, hc]; rfl)

/-- R29, R30: the CFG registers read the parameters and nothing else. -/
theorem readRegister_congr_cfg {s t : State} (hcfg : t.cfg = s.cfg) {sel : BitVec 6} (h1 : 1 ≤ sel.toNat)
    (h6 : sel.toNat ≤ 6) : readRegister t sel = readRegister s sel := by
  have hsel : sel.toNat = 1 ∨ sel.toNat = 2 ∨ sel.toNat = 3 ∨ sel.toNat = 4 ∨ sel.toNat = 5 ∨ sel.toNat = 6 := by omega
  rcases hsel with h | h | h | h | h | h <;> simp [readRegister, h, hcfg]

/-- Settles O35: a legal sel names a register and RDR answers it, a reserved one is an illegal command, and each corner
case is what one register reads. -/
theorem rdrBehaviour : Obligations.RdrBehaviour := by
  intro s sel
  obtain ⟨hword, hmask⟩ := encode_rdr sel
  refine ⟨⟨hword, hmask, fun w => illegal_of_rsvField⟩, exec_rdr_of_legal, fun hsel => ?_,
    exec_rdr_faultRecord_of_serving, exec_rdr_of_readRegister (congrArg some (statusWord_resetOf s.cfg)),
    fun hf hc => exec_rdr_of_readRegister (congrArg some (statusWord_of_illegalCmd hf hc)),
    fun t ht => readRegister_congr_cfg (step_cfg ht), fun hN hM => ?_⟩
  · rw [exec_rdr_of_reserved hsel]
    exact ⟨illegal_of_reserved_sel hsel, illegalCommand_of_serving, illegalCommand_of_fault⟩
  · have hhob : s.cfg.hob = 5 := Params.hob_of_square (B := 3) hN hM
    exact exec_rdr_of_readRegister (congrArg (some ∘ zext) hhob)

end Sys2Proof.Machine
end

section
/-! O17, O37, O38, O39, O43: faults, the order of the checks, and the FAULT phase (60_exceptions.md R115, R119 to R122,
R131). -/

namespace Sys2Proof.Machine

/-! ### ILV and VAL -/

/-- R80, R81: ILV and VAL are one check on h, and then their value. -/
theorem exec_eq_evaluateBelowWidth {i : Instr} {h : BitVec 6} (hi : i = .ilv h ∨ i = .val h) (s : State) :
    ∃ v, exec i s = evaluateBelowWidth h v s := by
  rcases hi with rfl | rfl
  · exact ⟨_, rfl⟩
  · exact ⟨_, rfl⟩

/-- Settles O17: when h is below the width there is an answer, and otherwise HOB_RANGE. -/
theorem interleaveCommandsOnlyHobRange : Obligations.InterleaveCommandsOnlyHobRange := by
  intro s h i hi hs
  obtain ⟨v, hx⟩ := exec_eq_evaluateBelowWidth hi s
  rcases Nat.lt_or_ge h.toNat s.cfg.W with hw | hw
  · exact ⟨_, hx.trans (evaluateBelowWidth_of_lt hs hw v), fun hf => absurd hf hs, fun _ => ⟨v, rfl⟩⟩
  · exact ⟨_, hx.trans (evaluateBelowWidth_of_ge hs hw v), fun _ => ⟨rfl, hw⟩, fun hn => absurd rfl hn⟩

/-! ### The faults of GEN -/

/-- GEN in EMPTY, its fill begun or not, completes or raises RANGE at the first cell that does not fit. -/
theorem exec_gen_ends {s : State} (hl : s.cfg.legal = true) (hi : s.LutInv) (he : s.phase = .empty) :
    ∃ t, exec .gen s = .next t ∧ (FillDone s t ∨ FillFault s t) := by
  obtain ⟨c, hrun⟩ := genStart_some_running hl hi
  exact execGen_of_empty he hrun

/-- A GEN that enters FAULT is one in EMPTY whose fill raised RANGE. -/
theorem fillFault_of_exec_gen {s t : State} (hl : s.cfg.legal = true) (hi : s.LutInv) (hs : s.phase ≠ .fault)
    (hx : exec .gen s = .next t) (hf : t.phase = .fault) : FillFault s t := by
  by_cases he : s.phase = .empty
  · obtain ⟨u, hu, hend⟩ := exec_gen_ends hl hi he
    obtain rfl := Host.Outcome.next.inj (hu.symm.trans hx)
    exact hend.resolve_left fun hd => by simp [hd.phase] at hf
  · obtain ⟨err, hu, -⟩ := execGen_of_not_empty he
    obtain rfl := Host.Outcome.next.inj (hu.symm.trans hx)
    exact absurd hf hs

/-- Settles O37: the other commands fault as `exec_read_cases` says, and GEN as a fill does. -/
theorem faultsArePrecise : Obligations.FaultsArePrecise := by
  intro s t i hl hi hs hx hf
  by_cases hg : i = .gen
  · subst hg
    obtain ⟨r, c, -, -, -, -, -, rfl⟩ := fillFault_of_exec_gen hl hi hs hx hf
    exact ⟨.range, _, _, _, by simp, fun hne => absurd rfl hne, fun _ => rfl⟩
  · rcases exec_read_cases i s hg with ⟨err, v, hu, -⟩ | ⟨-, c, a, b, v, hc, hu⟩ | ⟨-, -, hu, -⟩ <;> rw [hu] at hx
    · obtain rfl := Host.Outcome.next.inj hx
      exact absurd hf hs
    · obtain rfl := Host.Outcome.next.inj hx
      exact ⟨c, a, b, v, hc, fun _ => rfl, fun he => absurd he hg⟩
    · simp at hx

/-! ### The FAULT phase -/

/-- A word that decodes to RDR reads its register, in every phase (R110, R120). -/
theorem performCommand_of_rdr {s : State} {sel : BitVec 6} (hd : decode s.request.cmd = .instr (.rdr sel)) :
    ∃ v, readRegister s sel = some v ∧ performCommand s = .next (s.answered false v) := by
  rw [performCommand_of_instr hd]
  exact exec_rdr_of_legal (sel_le_of_decode hd)

/-- Settles O38: the block's turn performs the word, which in FAULT is a legal RDR's or is rejected. -/
theorem faultPhaseRejects : Obligations.FaultPhaseRejects := by
  intro s rest hl hf hp ht
  rw [step_perform hl hp ht]
  exact ⟨fun sel hd => performCommand_of_rdr (s := { s with turns := rest }) hd,
    performCommand_of_fault (s := { s with turns := rest }) hf⟩

/-- R122: FAULT is sticky: of the three kinds of `PhaseStep` it allows only the one that keeps PHASE and the record. -/
theorem PhaseStep.sticky {s t : State} (h : PhaseStep s t) (hf : s.phase = .fault) :
    t.phase = .fault ∧ t.faultRecord = s.faultRecord := by
  cases h with
  | kept phase record => exact ⟨phase.trans hf, record⟩
  | filled gen =>
    obtain ⟨-, he, -⟩ := (generating_iff s).1 gen
    simp [hf] at he
  | faulted _ serving => exact absurd hf serving

/-- Settles O43: a step that is no reset is a `PhaseStep`, and a reset clears PHASE and the record. -/
theorem onlyResetLeavesFault : Obligations.OnlyResetLeavesFault := by
  intro s t hf h
  refine ⟨fun hr => ?_, fun hr => ?_⟩
  · obtain ⟨hp, hrec⟩ := (step_phaseStep h hr).sticky hf
    exact ⟨hp, faultRecord_eq_iff.1 hrec⟩
  · rw [step_of_resetNext h hr]
    exact ⟨rfl, rfl, rfl, rfl, rfl, rfl⟩

/-! ### The order of the checks (R121) -/

/-- The third check, h ≥ W, and what follows it. -/
theorem performCommand_hobRange_check {s : State} (hs : s.phase ≠ .fault) {h : BitVec 6}
    (hd : decode s.request.cmd = .instr (.ilv h) ∨ decode s.request.cmd = .instr (.val h)) :
    (s.cfg.W ≤ h.toNat →
      performCommand s = .next (s.faulted .hobRange s.request.opa s.request.opb (zext h.toNat))) ∧
      (h.toNat < s.cfg.W → ∃ v, performCommand s = .next (s.answered false v)) := by
  obtain ⟨i, hi, hdi⟩ : ∃ i, (i = .ilv h ∨ i = .val h) ∧ decode s.request.cmd = .instr i :=
    hd.elim (fun e => ⟨_, .inl rfl, e⟩) fun e => ⟨_, .inr rfl, e⟩
  obtain ⟨v, hx⟩ := exec_eq_evaluateBelowWidth hi s
  rw [performCommand_of_instr hdi, hx]
  exact ⟨fun hw => evaluateBelowWidth_of_ge hs hw v, fun hw => ⟨v, evaluateBelowWidth_of_lt hs hw v⟩⟩

/-- The fourth and the fifth check, NOT_READY and BAD_INDEX, and what follows them. -/
theorem performCommand_rdl_checks {s : State} (hi : s.LutInv) (hd : decode s.request.cmd = .instr .rdl) :
    (s.phase = .empty → performCommand s = .next (s.faulted .notReady s.request.opa s.request.opb 0)) ∧
      (s.phase = .done → s.cfg.N ≤ s.request.opa.toNat ∨ s.cfg.M ≤ s.request.opb.toNat →
        performCommand s = .next (s.faulted .badIndex s.request.opa s.request.opb 0)) ∧
      (s.phase = .done → s.request.opa.toNat < s.cfg.N → s.request.opb.toNat < s.cfg.M →
        ∃ v, performCommand s = .next (s.answered false v)) := by
  rw [performCommand_of_instr hd]
  refine ⟨execRdl_of_empty, execRdl_of_out_of_range, fun hdone ha hb => ?_⟩
  obtain ⟨x, hx, -⟩ := exec_rdl_elementOf hi hdone ha hb
  exact ⟨x, hx⟩

/-- The sixth check, RANGE: the fill of a GEN in EMPTY raises it when some value does not fit. -/
theorem performCommand_gen_faults {s : State} (hl : s.cfg.legal = true) (hi : s.LutInv)
    (hd : decode s.request.cmd = .instr .gen) (he : s.phase = .empty) (hr : s.cfg.rangeCheck = true)
    (hfit : ¬ allFit s.cfg) : ∃ t, performCommand s = .next t ∧ FillFault s t := by
  obtain ⟨t, hx, hend⟩ := exec_gen_ends hl hi he
  exact ⟨t, (performCommand_of_instr hd).trans hx, hend.resolve_left fun hdone => hfit (hdone.fits hr)⟩

/-- When no check applies to a GEN it answers 0 and PHASE is DONE. -/
theorem performCommand_gen_done {s : State} (hl : s.cfg.legal = true) (hi : s.LutInv) (hs : s.phase ≠ .fault)
    (hd : decode s.request.cmd = .instr .gen)
    (hpass : s.phase = .done ∨ s.cfg.rangeCheck = false ∨ allFit s.cfg) :
    ∃ t, performCommand s = .next t ∧ t.phase = .done ∧ t.port = .answering { err := false, data := 0 } := by
  rw [performCommand_of_instr hd]
  cases hp : s.phase with
  | empty =>
    have hfit : s.cfg.rangeCheck = true → allFit s.cfg := fun hr => by simpa [hp, hr] using hpass
    obtain ⟨t, hx, hend⟩ := exec_gen_ends hl hi hp
    obtain ⟨lut, draws, rfl, -⟩ := fillDone_of_allFit hend hfit
    exact ⟨_, hx, rfl, rfl⟩
  | done => exact ⟨_, genInDoneWritesNothing s hp, hp, rfl⟩
  | fault => exact absurd hp hs

/-- Settles O39: the block's turn performs the word, and each check is read off the lemma on the words it applies to. -/
theorem checkPriority : Obligations.CheckPriority := by
  rintro s u rest hl hi hp ht hu
  rw [step_perform hl hp ht, ← hu]
  obtain ⟨hcfg, hphase, hreq⟩ : s.cfg = u.cfg ∧ s.phase = u.phase ∧ s.request = u.request := by simp [hu]
  have hiu : u.LutInv := hu ▸ hi
  rw [hcfg] at hl
  simp only [hcfg, hphase, hreq]
  refine ⟨fun ⟨hf, hd⟩ => performCommand_of_fault hf hd, fun sel hd => ?_, fun hs => ⟨fun why hd => ?_,
    fun h hd => performCommand_hobRange_check hs hd, performCommand_rdl_checks hiu, fun hd => ⟨fun he hr hfit => ?_,
      performCommand_gen_done hl hiu hs hd⟩⟩⟩
  · obtain ⟨v, -, hx⟩ := performCommand_of_rdr hd
    exact ⟨v, hx⟩
  · exact (performCommand_of_illegal hd).trans (illegalCommand_of_serving hs)
  · obtain ⟨t, hx, i, j, hin, hjn, -, hv, hbefore, rfl⟩ := performCommand_gen_faults hl hiu hd he hr hfit
    exact ⟨i, j, hin, hjn, hv, hbefore, hx⟩

end Sys2Proof.Machine
end

section
/-! O23: the cell turns of a GEN in progress are the cell steps of its fill, and N·M of them end it (10_state.md R33,
70_reset_and_hazards.md R143). -/

namespace Sys2Proof.Machine

theorem cellTurn_of_generating {s : State} (hg : generating s = true) : cellTurn s = genCell (genStart s) :=
  if_pos hg

theorem cellTurn_of_port_ne {s : State} (h : s.port ≠ .accepted) : cellTurn s = s := by
  simp [cellTurn, generating_of_port_ne h]

theorem FillDone.exists_answer {s₀ s : State} (h : FillDone s₀ s) : ∃ r, s.port = .answering r := by
  obtain ⟨lut, draws, rfl, -⟩ := h
  exact ⟨_, rfl⟩

theorem FillFault.exists_answer {s₀ s : State} (h : FillFault s₀ s) : ∃ r, s.port = .answering r := by
  obtain ⟨i, j, -, -, -, -, -, rfl⟩ := h
  exact ⟨_, rfl⟩

/-- Once the GEN has answered, neither cell turns nor cell steps do anything. -/
theorem iterate_cellTurn_of_answering {s : State} {r : Response} (hp : s.port = .answering r) (hf : s.fill = none)
    (k : Nat) : cellTurn^[k] s = genCells k s := by
  rw [genCells_of_fill_none hf]
  exact Function.iterate_fixed (cellTurn_of_port_ne (by simp [hp])) k

/-- The cell turns of a running fill are its cell steps, past its end too. -/
theorem iterate_cellTurn_of_running {s₀ s : State} {c : Cursor} (h : FillRunning s₀ c s)
    (hg : generating s₀ = true) (k : Nat) : cellTurn^[k] s = genCells k s := by
  induction k generalizing c s with
  | zero => rfl
  | succ k ih =>
    have hturn : cellTurn s = genCell s := by rw [cellTurn_of_generating (h.generating hg), genStart_of_fill h.fill]
    have hcells : genCells (k + 1) s = genCells k (genCell s) := by simp [genCells, h.fill]
    rw [Function.iterate_succ_apply, hturn, hcells]
    rcases h.step with ⟨c', -, hr⟩ | hd | hf
    · exact ih hr
    · obtain ⟨r, hp⟩ := hd.exists_answer
      exact iterate_cellTurn_of_answering hp hd.fill k
    · obtain ⟨r, hp⟩ := hf.exists_answer
      exact iterate_cellTurn_of_answering hp hf.fill k

/-- The first cell turn begins the fill itself, so the state before `genStart` goes the same way. -/
theorem iterate_cellTurn_of_generating {s : State} {c : Cursor} (h : FillRunning s c (genStart s))
    (hg : generating s = true) {k : Nat} (hk : 0 < k) : cellTurn^[k] s = genCells k (genStart s) := by
  have hfirst : cellTurn s = cellTurn (genStart s) := by
    rw [cellTurn_of_generating hg, cellTurn_of_generating (h.generating hg), genStart_of_fill h.fill]
  obtain ⟨m, rfl⟩ := Nat.exists_eq_succ_of_ne_zero hk.ne'
  rw [Function.iterate_succ_apply, hfirst, ← Function.iterate_succ_apply, iterate_cellTurn_of_running h hg]

/-- Settles O23: N·M cell turns are N·M cell steps, which end every fill, and at either end there is an answer. -/
theorem genAnswersWithinItsCells : Obligations.GenAnswersWithinItsCells := by
  intro s hl hi hg
  obtain ⟨c, hrun⟩ := genStart_some_running hl hi
  have hpos : 0 < s.cfg.cells := Nat.zero_lt_of_lt (Params.flat_lt_cells hrun.row hrun.col)
  obtain ⟨r, hr⟩ : ∃ r, (cellTurn^[s.cfg.cells] s).port = .answering r := by
    rw [iterate_cellTurn_of_generating hrun hg hpos]
    exact (genCells_ends hrun).elim FillDone.exists_answer FillFault.exists_answer
  exact ⟨_, r, run_cell_turns _ hl s.turns, hr⟩

end Sys2Proof.Machine
end

section
/-! O50, O51: reset at any edge, and during a GEN (10_state.md R35, 70_reset_and_hazards.md R135, R136). -/

namespace Sys2Proof.Machine

/-- Settles O50: the step is `resetEdge`, whose fields are the reset values, and the next edge opens the port. -/
theorem resetRestoresTheResetState : Obligations.ResetRestoresTheResetState := by
  intro s i rest hl ht hrst
  refine ⟨_, step_resetEdge hl ht hrst, rfl, rfl, rfl, rfl, rfl, rfl, fun _ => rfl, rfl, rfl, rfl, rfl, rfl,
    fun i' rest' hrest hrst' => ?_⟩
  exact ⟨_, step_handshake (s := resetEdge { s with turns := rest }) hl hrest hrst', rfl, rfl, rfl⟩

/-- A run that reaches `t` goes on from `t`, for any machine of the host's interface. -/
theorem run_add (M : Host.Core) {m : Nat} {s t : M.State} (h : M.run m s = .next t) (n : Nat) :
    M.run (m + n) s = M.run n t := by
  induction m generalizing s with
  | zero =>
    obtain rfl := Host.Outcome.next.inj h
    rw [Nat.zero_add]
  | succ m ih =>
    rw [Nat.succ_add]
    cases hs : M.step s with
    | next s' =>
      rw [run_succ_of_step M hs] at h ⊢
      exact ih h
    | fault r => simp [Host.Core.run, hs] at h
    | refused r => simp [Host.Core.run, hs] at h

/-- No number of cell turns touches the parameters or what the host has received. -/
theorem iterate_cellTurn_frame (k : Nat) (s : State) :
    (cellTurn^[k] s).cfg = s.cfg ∧ (cellTurn^[k] s).received = s.received := by
  induction k generalizing s with
  | zero => exact ⟨rfl, rfl⟩
  | succ k ih =>
    obtain ⟨hcfg, -, -, hreceived⟩ := cellTurn_frame s
    obtain ⟨ihcfg, ihreceived⟩ := ih (cellTurn s)
    exact ⟨ihcfg.trans hcfg, ihreceived.trans hreceived⟩

/-- Settles O51: whatever the cell turns have left, the edge behind them is `resetEdge`, and in EMPTY RDL is not
ready. -/
theorem resetDuringGen : Obligations.ResetDuringGen := by
  intro s n i hl _ hrst ht
  obtain ⟨hcfg, hreceived⟩ := iterate_cellTurn_frame n s
  have hcells := run_cell_turns n hl [.edge i]
  rw [with_turns_eq_self ht] at hcells
  have hreset := step_resetEdge (s := { cellTurn^[n] s with turns := [.edge i] }) (hcfg ▸ hl) rfl hrst
  have hrun : core.run (n + 1) s = .next (resetEdge { cellTurn^[n] s with turns := [] }) :=
    (run_add core hcells 1).trans (run_succ hreset 0)
  exact ⟨_, hrun, rfl, fun _ => rfl, rfl, hreceived, rfl, execRdl_of_empty rfl⟩

end Sys2Proof.Machine
end
